-- ==== Sys2Proof/Word.lean ====
section
/-! DEFINITION. The word types of the RC4-16 keystream generator (spec/00_scope.md rule R8): every value of the core is
an unsigned bit string of a stated width, and none is signed. -/

namespace Sys2Proof

/-- A data byte, key byte, keystream byte or output byte: 8 bits (rule R8). -/
abbrev Byte := BitVec 8

/-- A permutation entry, a key word, `i`, `j`, a generated word, a command word or a response word: 16 bits
(rules R8, R53, R54). -/
abbrev Word := BitVec 16

end Sys2Proof
end

