-- ==== Sys2Proof/Syntax.lean ====
section
/-! DEFINITION. The command set (spec/30_encoding.md rules R53, R55, R56) and the assembler's notation for it (rules R60,
R61). -/

namespace Sys2Proof

/-- The five commands a host can issue, one constructor for each row of spec/opcode_table.json. The one operand is
`DATA`, an unsigned byte used as it stands (rule R55). -/
inductive Instr where
  /-- RST: reset the core to KEYLOAD, end the session (rule R85). -/
  | rst
  /-- KEYB: append one key byte (rule R63). -/
  | keyb (data : Byte)
  /-- SCHED: end of key; fill, key-schedule, discard 786432 generator steps (rule R69). -/
  | sched
  /-- CRYPT: one generator step; the output is `DATA XOR` keystream byte (rule R81). -/
  | crypt (data : Byte)
  /-- STAT: return `STATUS`, change nothing (rule R86). -/
  | stat
deriving DecidableEq, Repr

/-- One line of assembler text (rules R60, R61): a command or a pseudo-command, its operands the values of the literals as
written, which `Line.wf` then checks to be bytes. Pseudo-commands have no encoding of their own (rule R61). -/
inductive Line where
  | rst
  | keyb (data : Nat)
  | sched
  | crypt (data : Nat)
  | stat
  /-- `KS`: read the next raw keystream byte. -/
  | ks
  /-- `KEY b0, b1, ...`: load a key byte sequence. -/
  | key (bytes : List Nat)
  /-- `STREAM d0, d1, ...`: process a data byte sequence. -/
  | stream (bytes : List Nat)
  /-- `SESSION key; data`: one whole encryption or decryption. -/
  | session (key data : List Nat)
deriving DecidableEq, Repr

end Sys2Proof
end

