-- ==== Sys2Proof/WellFormed.lean ====
section
/-! DEFINITION. When a command and an assembler line are well formed. -/

namespace Sys2Proof

/-- Every command term is well formed: the type of `DATA` already holds exactly the values 0..255 that rule R55 gives it, and
no other command has an operand. The check is by constructor, so that a new operand cannot go unchecked. -/
def Instr.wf : Instr → Bool
  | .rst => true
  | .keyb _ => true
  | .sched => true
  | .crypt _ => true
  | .stat => true

/-- A literal operand is one byte (rule R60: "one byte operand"). -/
def isByteLiteral (n : Nat) : Bool := n < 256

/-- A line of assembler text is well formed when every literal in it is one byte (rules R60, R61). -/
def Line.wf : Line → Bool
  | .rst => true
  | .keyb n => isByteLiteral n
  | .sched => true
  | .crypt n => isByteLiteral n
  | .stat => true
  | .ks => true
  | .key bs => bs.all isByteLiteral
  | .stream ds => ds.all isByteLiteral
  | .session bs ds => bs.all isByteLiteral && ds.all isByteLiteral

end Sys2Proof
end

