-- ==== Sys2Proof/Decode.lean ====
section
/-! DEFINITION. Decoding and encoding of command words (spec/30_encoding.md rules R53 to R59), and the expansion of the
assembler's pseudo-commands (rule R61). A command word is one abstract 16-bit value; it has no byte order (rule R40,
spec/92_eei_decisions.md D20; DEDUCED, assumption 11; safe). -/

namespace Sys2Proof

/-- `OP`, bits 15:12 of a command word (rule R53). -/
def fieldOp (w : Word) : BitVec 4 := w.extractLsb' 12 4

/-- `ZERO`, bits 11:8 of a command word (rule R53). -/
def fieldZero (w : Word) : BitVec 4 := w.extractLsb' 8 4

/-- `DATA`, bits 7:0 of a command word (rule R53). -/
def fieldData (w : Word) : Byte := w.extractLsb' 0 8

/-- Why a command word is illegal (rule R57). The core reports every one of these alike, as IllegalCommand (rule R91). -/
inductive DecodeError where
  /-- `OP` is 0 or one of 6..15. -/
  | reservedOp (op : BitVec 4)
  /-- `OP` is one of 1..5 and `ZERO` is not 0. -/
  | zeroFieldNotZero (op zero : BitVec 4)
  /-- `OP` is 1, 3 or 5, `ZERO` is 0 and `DATA` is not 0. -/
  | operandNotZero (op : BitVec 4) (data : Byte)
deriving DecidableEq, Repr

/-- The command that an operation code and its data byte stand for, `ZERO` being 0 (rule R56). -/
def decodeOp (op : BitVec 4) (data : Byte) : Except DecodeError Instr :=
  let bare (i : Instr) : Except DecodeError Instr :=
    if data = 0 then .ok i else .error (.operandNotZero op data)
  if op = 1 then bare .rst
  else if op = 2 then .ok (.keyb data)
  else if op = 3 then bare .sched
  else if op = 4 then .ok (.crypt data)
  else if op = 5 then bare .stat
  else .error (.reservedOp op)

/-- An operation code that some row of rule R56's table has. -/
def usedOp (op : BitVec 4) : Bool := 1 ≤ op.toNat && op.toNat ≤ 5

/-- The command a word stands for, or why it stands for none (rules R56, R57). Total on all 65536 words. -/
def decode (w : Word) : Except DecodeError Instr :=
  if usedOp (fieldOp w) && fieldZero w != 0 then .error (.zeroFieldNotZero (fieldOp w) (fieldZero w))
  else decodeOp (fieldOp w) (fieldData w)

/-- `legal(cmd)`, written from rule R57's own formula:
`(OP in {1, 3, 5} and cmd[11:0] = 0) or (OP in {2, 4} and ZERO = 0)`. -/
def legal (w : Word) : Bool :=
  ((fieldOp w == 1 || fieldOp w == 3 || fieldOp w == 5) && w.extractLsb' 0 12 == 0) ||
    ((fieldOp w == 2 || fieldOp w == 4) && fieldZero w == 0)

/-- The instruction the decoder reads from a row of spec/opcode_table.json: `nbits` bits with the value `w`, bit 0 the least
significant. A command word has 16 bits; bits above `nbits` are 0, and nothing longer is a command (rule R59). -/
def decodeTableWord (nbits w : Nat) : Option Instr :=
  if nbits ≤ 16 then (decode (BitVec.ofNat 16 (w % 2 ^ nbits))).toOption else none

/-- `cmd = {OP, ZERO, DATA}` (rule R53). -/
def commandWord (op zero : BitVec 4) (data : Byte) : Word := op ++ zero ++ data

/-- The word of a command (rule R56). -/
def encode : Instr → Word
  | .rst => commandWord 1 0 0
  | .keyb data => commandWord 2 0 data
  | .sched => commandWord 3 0 0
  | .crypt data => commandWord 4 0 data
  | .stat => commandWord 5 0 0

/-- A row of rule R56's table: a word `w` selects it when `w AND mask = match`. -/
structure OpcodeRow where
  pattern : Word
  mask : Word
deriving DecidableEq, Repr

/-- The table's test of one word against one row (rule R56). -/
def OpcodeRow.selects (r : OpcodeRow) (w : Word) : Bool := w &&& r.mask == r.pattern

/-- The match and mask columns of rule R56, in the table's order. -/
def opcodeRow : Instr → OpcodeRow
  | .rst => ⟨0x1000, 0xFFFF⟩
  | .keyb _ => ⟨0x2000, 0xFF00⟩
  | .sched => ⟨0x3000, 0xFFFF⟩
  | .crypt _ => ⟨0x4000, 0xFF00⟩
  | .stat => ⟨0x5000, 0xFFFF⟩

/-- The KEYB commands of a key (pseudo-command `KEY`, rule R61). -/
def keyCommands (key : List Byte) : List Instr := key.map .keyb

/-- The key byte a command carries, if it is KEYB (rule R52: "Key bytes in" are the `DATA` fields of the KEYB commands). -/
def Instr.keyByte? : Instr → Option Byte
  | .keyb data => some data
  | .rst => none
  | .sched => none
  | .crypt _ => none
  | .stat => none

/-- The CRYPT commands of a data sequence (pseudo-command `STREAM`, rule R61). -/
def streamCommands (data : List Byte) : List Instr := data.map .crypt

/-- The commands of one whole session (pseudo-command `SESSION`, rule R61). -/
def sessionCommands (key data : List Byte) : List Instr :=
  .rst :: keyCommands key ++ .sched :: streamCommands data

/-- The byte a literal stands for. -/
def byteLiteral (n : Nat) : Byte := BitVec.ofNat 8 n

/-- The commands a line of assembler text expands to (rules R60, R61). -/
def Line.expand : Line → List Instr
  | .rst => [.rst]
  | .keyb n => [.keyb (byteLiteral n)]
  | .sched => [.sched]
  | .crypt n => [.crypt (byteLiteral n)]
  | .stat => [.stat]
  | .ks => [.crypt 0]
  | .key bs => keyCommands (bs.map byteLiteral)
  | .stream ds => streamCommands (ds.map byteLiteral)
  | .session bs ds => sessionCommands (bs.map byteLiteral) (ds.map byteLiteral)

/-- The command words of a program: its lines executed top to bottom with no branches (rule R60); none if a line is ill
formed. -/
def assemble (program : List Line) : Option (List Word) :=
  if program.all Line.wf then some ((program.flatMap Line.expand).map encode) else none

end Sys2Proof
end

