-- ==== Sys2Proof/Config.lean ====
section
/-! DEFINITION. The parameters of the algorithm (spec/00_scope.md rule R6, spec/92_eei_decisions.md D24). They are
constants of this hardware: the spec leaves none of them to an implementation and has no free value, so this file
holds no opaque constant. -/

namespace Sys2Proof.Config

/-- `WORD_BITS`: width of a permutation entry, of a key word, of `i` and of `j` (rule R6). -/
def wordBits : Nat := 16

/-- `STATE_SIZE`: words in each of the memories `S` and `K`, and the modulus of index arithmetic (rules R6, R36). -/
def stateSize : Nat := 65536

/-- Micro-steps of phase FILL, one for each word of `S` (rules R69, R70). -/
def fillSteps : Nat := 65536

/-- `KSA_STEPS`: iterations of the key-scheduling loop, whatever the key length (rule R6). -/
def ksaSteps : Nat := 65536

/-- `DROP_STEPS`: generator steps whose output is discarded (rule R6). -/
def dropSteps : Nat := 786432

/-- `EXTRACT_SHIFT`: right shift applied to a generated word before masking (rule R6). -/
def extractShift : Nat := 4

/-- `EXTRACT_MASK`: mask applied after the shift (rule R6). -/
def extractMask : Word := 0x00FF

/-- `KEY_MAX_WORDS`: greatest number of key words the scheduler consumes (rule R6). -/
def keyMaxWords : Nat := 65536

/-- `KEY_MAX_BYTES`: greatest number of key bytes stored (rule R6). -/
def keyMaxBytes : Nat := 131072

/-- Micro-steps a successful SCHED makes in all: 65536 + 65536 + 786432 = 917504 (rules R23, R110). -/
def scheduleSteps : Nat := fillSteps + ksaSteps + dropSteps

end Sys2Proof.Config
end

