-- ==== Sys2Proof/Machine/State.lean ====
section
/-! DEFINITION. The state of the machine: the core's architectural state, complete (spec/10_state.md rule R16), and beside it
the host's side of the interface (spec/30_encoding.md rule R52), as plain data. -/

namespace Sys2Proof.Machine

/-- The six used values of the sequencer register `PHASE` (rule R21). The reserved values 5 and 6 never occur
(spec/93_implementation_defined.md U6), so the type leaves them out (DEDUCED, assumption 7; safe). -/
inductive Phase where
  | keyload
  | fill
  | ksa
  | drop
  | ready
  | error
deriving DecidableEq, Repr

/-- The causes the register `ECODE` records (rules R27, R89). The reserved codes 4..15 are never produced (U6), so the type
leaves them out (DEDUCED, assumption 7; safe). -/
inductive Cause where
  | none
  | keyScheduleError
  | illegalCommand
  | sequenceError
deriving DecidableEq, Repr

/-- One word of a memory and its index: both memories are addressed by word, not by byte (rules R36, R41; DEDUCED,
assumption 6; safe). -/
abbrev Cell := Nat × Word

/-- A memory: the words written since the last reset, by index. An unlisted word is unwritten and reads as no value
(rule R35, rule R51; DESIGN CHOICE, assumption 1; safe). -/
abbrev Memory := List Cell

/-- The canonical form: indices strictly rising and inside the memory, so that equal memories are equal lists. -/
abbrev Memory.wf (m : Memory) : Prop :=
  (m.map Prod.fst).Pairwise (· < ·) ∧ ∀ c ∈ m, c.1 < Config.stateSize

/-- What the host does next (rules R14, R52, R105; DESIGN CHOICE, assumption 2; DEDUCED, assumption 10; safe). -/
inductive HostMove where
  /-- Present a command word, once the core takes commands again. -/
  | command (w : Word)
  /-- Hard reset: power-on, loss of power or a reset input, striking after `delay` further steps of the core. -/
  | hardReset (delay : Nat)
deriving DecidableEq, Repr

/-- The machine. The first nine fields are the core's architectural state, "the following and nothing else" (rule R16); the
last two are the host's side of the interface and belong to no register of the core (rule R31; DESIGN CHOICE,
assumption 2; safe). -/
structure State where
  /-- The permutation memory. -/
  S : Memory
  /-- The key word memory. -/
  K : Memory
  /-- Generator index. -/
  i : Word
  /-- Key-schedule accumulator, then generator index (rule R18). -/
  j : Word
  /-- `KLEN`: key bytes stored in `K`, 0..131072. -/
  klen : BitVec 18
  /-- `KTRUNC`: a key byte was dropped because `K` was full. -/
  ktrunc : Bool
  /-- `PHASE`: the sequencer phase. -/
  phase : Phase
  /-- `CNT`: completed micro-steps inside the phase. -/
  cnt : BitVec 20
  /-- `ECODE`: the cause of the error that put the core in ERROR. -/
  ecode : Cause
  /-- The moves the host has yet to make, next first. -/
  host : List HostMove
  /-- The response words the host has received, oldest first. -/
  responses : List Word
deriving DecidableEq, Repr

/-- Which memory an access goes to. -/
inductive Space where
  | S
  | K
deriving DecidableEq, Repr

/-- Why a step stops with a fault. None of these is an error of the hardware: the spec proves each unreachable (rules R39,
R51, R12), and a state that meets `State.Inv` never raises one (DESIGN CHOICE, assumption 9). -/
inductive Fault where
  /-- A word that nothing has written since the last reset was read. Raised by `Memory.fetch`, for uKSA, uPRGA and the low-byte
  write of KEYB. Safe: the model stops where the word has no specified value (rules R35, R51). -/
  | unwrittenWord (space : Space) (index : Nat)
  /-- An index past the last word of a memory. Raised by `Memory.fetch` and `Memory.put`, for KEYB in a state whose `KLEN` is
  above 131072. Safe: the spec says there is no such word and no such access (rule R39). -/
  | noSuchWord (space : Space) (index : Nat)
  /-- The remainder `x mod N` with `N = 0`. Raised by `cyclicIndex`, for uKSA in a state whose `KLEN` is 0. Safe: "`x mod 0` is
  never evaluated" (rule R12, spec/93_implementation_defined.md U1). -/
  | emptyKeyModulus
deriving DecidableEq, Repr

/-- Why a step has no meaning. -/
inductive Refusal where
  /-- An instruction that has no meaning yet. No arm of `exec` answers it: all five commands are modelled. -/
  | notModelled (mnemonic : String)
  /-- A command given to `exec` while the core is in FILL, KSA or DROP. Raised by `whenAccepting`. Safe: "the interface does not
  take it, so in the model the host has no such move" (rule R52, U7; DEDUCED, assumption 5), and
  `step` never makes it. -/
  | commandInProgress
deriving DecidableEq, Repr

/-- The state right after a hard reset with no host move pending (rule R35): every register 0, `PHASE` KEYLOAD, and no word of
`S` or `K` written. -/
def State.reset : State where
  S := []
  K := []
  i := 0
  j := 0
  klen := 0
  ktrunc := false
  phase := .keyload
  cnt := 0
  ecode := .none
  host := []
  responses := []

end Sys2Proof.Machine
end

