-- ==== Sys2Proof/Machine/Operands.lean ====
section
/-! DEFINITION. The arithmetic of the core and the addresses its operands are reached by (spec/00_scope.md rules R8 to R13,
spec/20_memory.md rules R37, R38). Values are computed exactly on natural numbers and narrowed at the end; no operation
records a carry, an overflow, a zero or a sign (rules R8, R29). -/

namespace Sys2Proof.Machine

/-- `add16(a, b)`: the sum modulo 65536, the carry out dropped (rule R9). -/
def add16 (a b : Word) : Word := BitVec.ofNat 16 ((a.toNat + b.toNat) % Config.stateSize)

/-- `add16(a, b, c)`: the exact sum of three operands, reduced once (rule R9). -/
def add16Three (a b c : Word) : Word := BitVec.ofNat 16 ((a.toNat + b.toNat + c.toNat) % Config.stateSize)

/-- `extract(W) = (W >> 4) & 0xFF` (rule R10): a logical shift, then the mask, kept as a byte. -/
def extract (w : Word) : Byte := ((w >>> Config.extractShift) &&& Config.extractMask).setWidth 8

/-- `a XOR b` on two bytes (rule R11). -/
def xorByte (a b : Byte) : Byte := a ^^^ b

/-- `pair(h, l) = (h << 8) | l`: `h` in bits 15..8, `l` in bits 7..0 (rule R13). -/
def pair (h l : Byte) : Word := h ++ l

/-- `x mod N` for `N >= 1`; the remainder by 0 has no value (rule R12, spec/93_implementation_defined.md U1). -/
def cyclicIndex (x : Word) (n : Nat) : Option Nat := if n = 0 then none else some (x.toNat % n)

/-- The key word count `N = (KLEN + 1) >> 1` (rules R12, R25). -/
def keyWordCount (klen : BitVec 18) : Nat := (klen.toNat + 1) / 2

/-- The word of `K` a key byte goes to: `KLEN >> 1`, `KLEN` before the increment (rules R38, R63). -/
def keyByteIndex (klen : BitVec 18) : Nat := klen.toNat / 2

/-- `KLEN[0] = 0`: the next key byte is the first of a pair (rule R63). -/
def firstOfPair (klen : BitVec 18) : Bool := !klen.getLsbD 0

/-- The loop variable `x` of FILL and KSA: `CNT[15:0]` (rules R22, R70, R71). -/
def loopIndex (cnt : BitVec 20) : Word := cnt.setWidth 16

/-- The word a low-byte write leaves: `{old[15:8], b}` (rules R40, R42). -/
def withLowByte (old : Word) (b : Byte) : Word := pair (old.extractLsb' 8 8) b

end Sys2Proof.Machine
end

