-- ==== Sys2Proof/Machine/Flags.lean ====
section
/-! DEFINITION. The status byte and the response word (spec/10_state.md rule R28, spec/30_encoding.md rule R54). The core has no
condition codes and no arithmetic flags (rule R29): `KTRUNC` and the fields of `STATUS` are all there is. -/

namespace Sys2Proof.Machine

/-- The 3-bit value of `PHASE` (rule R21). -/
def Phase.code : Phase → BitVec 3
  | .keyload => 0
  | .fill => 1
  | .ksa => 2
  | .drop => 3
  | .ready => 4
  | .error => 7

/-- The 4-bit value of `ECODE` (rules R27, R89). -/
def Cause.code : Cause → BitVec 4
  | .none => 0
  | .keyScheduleError => 1
  | .illegalCommand => 2
  | .sequenceError => 3

/-- The phases in which the core takes a command (rules R21, R24, R52). -/
def Phase.accepting : Phase → Bool
  | .keyload => true
  | .fill => false
  | .ksa => false
  | .drop => false
  | .ready => true
  | .error => true

/-- The number of values `CNT` has in a phase: 65536 in FILL and KSA, 786432 in DROP, and 0 alone elsewhere (rule R22). -/
def Phase.steps : Phase → Nat
  | .keyload => 1
  | .fill => Config.fillSteps
  | .ksa => Config.ksaSteps
  | .drop => Config.dropSteps
  | .ready => 1
  | .error => 1

/-- `STATUS = {ECODE, KTRUNC, PHASE}` (rule R28): assembled each time a response is formed, and no register of its own. -/
def State.status (s : State) : Byte := s.ecode.code ++ BitVec.ofBool s.ktrunc ++ s.phase.code

/-- `rsp = {STATUS, DOUT}` (rule R54). -/
def responseWord (status dout : Byte) : Word := status ++ dout

/-- The `STATUS` field of a response, bits 15:8 (rule R54). -/
def responseStatus (r : Word) : Byte := r.extractLsb' 8 8

/-- The `DOUT` field of a response, bits 7:0 (rule R54). -/
def responseDout (r : Word) : Byte := r.extractLsb' 0 8

/-- The `PHASE` field of a response, `rsp[10:8]` (rules R28, R54). -/
def responsePhase (r : Word) : BitVec 3 := r.extractLsb' 8 3

/-- The host's test before it uses `DOUT` of a response to CRYPT: `rsp[10:8] = 4` (rules R54, R108). -/
def carriesOutput (r : Word) : Bool := responsePhase r == Phase.ready.code

end Sys2Proof.Machine
end

