-- ==== Sys2Proof/Machine/Ops.lean ====
section
/-! DEFINITION. The operations the commands and micro-operations share: memory access, the swap, the sequencer's `goto`, the
response, reset, and the entry to ERROR, which is this hardware's taking of an exception. -/

namespace Sys2Proof.Machine

/-- The outcome type of one step of this machine. -/
abbrev Result := Host.Outcome State Fault Refusal

/-- The value of word `a`, if the session has written it. -/
def Memory.read? : Memory → Nat → Option Word
  | [], _ => none
  | (b, v) :: m, a => if a = b then some v else Memory.read? m a

/-- The memory with word `a` holding `w`, its list kept in rising order. -/
def Memory.write : Memory → Nat → Word → Memory
  | [], a, w => [(a, w)]
  | (b, v) :: m, a, w =>
    if a < b then (a, w) :: (b, v) :: m
    else if a = b then (a, w) :: m
    else (b, v) :: Memory.write m a w

/-- `MemRead(M, a)` (rules R42, R46): the value of the latest write to the word. A word not written in the session has no value
(rule R51), and no word lies past index 65535 (rule R36). -/
def Memory.fetch (space : Space) (m : Memory) (a : Nat) : Except Fault Word :=
  if a < Config.stateSize then
    match m.read? a with
    | some w => .ok w
    | none => .error (.unwrittenWord space a)
  else .error (.noSuchWord space a)

/-- `MemWrite(M, a, v)` (rule R42). -/
def Memory.put (space : Space) (m : Memory) (a : Nat) (w : Word) : Except Fault Memory :=
  if a < Config.stateSize then .ok (m.write a w) else .error (.noSuchWord space a)

/-- `MemWriteLo(M, a, b)`: bits 7..0 of word `a` become `b`, bits 15..8 stay (rule R42). -/
def Memory.putLow (space : Space) (m : Memory) (a : Nat) (b : Byte) : Except Fault Memory :=
  match m.fetch space a with
  | .ok old => m.put space a (withLowByte old b)
  | .error f => .error f

/-- `swap(S, a, b)` (rule R43): both reads before both writes; the memory is unchanged when `a = b`. -/
def Memory.swap (m : Memory) (a b : Word) : Except Fault Memory :=
  match m.fetch .S a.toNat, m.fetch .S b.toNat with
  | .ok t1, .ok t2 => .ok ((m.write a.toNat t2).write b.toNat t1)
  | .error f, _ => .error f
  | .ok _, .error f => .error f

/-- `goto P`: `PHASE <- P; CNT <- 0` (rule R23). -/
def State.goto (s : State) (p : Phase) : State := { s with phase := p, cnt := 0 }

/-- One more completed micro-step in the phase: `CNT <- CNT + 1` (rule R22). -/
def State.count (s : State) : State := { s with cnt := s.cnt + 1 }

/-- This micro-step is the last of a phase of `steps` steps: `CNT = steps - 1` (rules R70, R71, R76). -/
def State.lastOf (s : State) (steps : Nat) : Bool := s.cnt.toNat + 1 == steps

/-- `respond(d)` (rule R54): the host receives `{STATUS, d}`, with `STATUS` as the command's writes have left it. -/
def State.respond (s : State) (d : Byte) : State :=
  { s with responses := s.responses ++ [responseWord s.status d] }

/-- `raise E` (rule R97), the one way an error is taken: `ECODE <- c; PHASE <- ERROR; respond(0x00)`. Nothing is saved and
nothing else is written. -/
def State.raise (s : State) (c : Cause) : State := State.respond { s with ecode := c, phase := .error } 0

/-- The effect both resets have (rules R35, R105), which is also the only way out of ERROR (rule R99): every register takes its
reset value, and what `S` and `K` held is dead, so no word of either counts as written any more (rules R85, R106;
DESIGN CHOICE, assumption 1; safe). -/
def State.resetCore (s : State) : State :=
  { State.reset with host := s.host, responses := s.responses }

/-- A command runs only in a phase that takes commands (rules R24, R52). -/
def whenAccepting (s : State) (run : Result) : Result :=
  if s.phase.accepting then run else .refused .commandInProgress

/-- In ERROR a command has no effect at all and is answered `{STATUS, 0x00}` (rule R98, and step 3 of rule R58); elsewhere it
runs. -/
def unlessError (s : State) (run : Result) : Result :=
  whenAccepting s (if s.phase = .error then .next (s.respond 0) else run)

/-- A command that belongs to one phase (steps 3 and 5 to 7 of rule R58): no effect in ERROR, SequenceError in the other phase
that takes commands (rule R92). -/
def onlyIn (p : Phase) (s : State) (run : Result) : Result :=
  unlessError s (if s.phase = p then run else .next (s.raise .sequenceError))

/-- An illegal word taken from the host (steps 3 and 4 of rule R58): no effect in ERROR, IllegalCommand in KEYLOAD and READY
(rules R57, R91). No field of the word is used. -/
def takeIllegal (s : State) : Result := unlessError s (.next (s.raise .illegalCommand))

/-- The outcome of an access that may stop with a fault. -/
def outcomeOf : Except Fault State → Result
  | .ok s => .next s
  | .error f => .fault f

end Sys2Proof.Machine
end

