-- ==== Sys2Proof/Machine/Keystream.lean ====
section
/-! DEFINITION. Family 3, keystream generation (spec/42_keystream.md): the micro-operations uPRGA, uDROP and uEXTRACT. -/

namespace Sys2Proof.Machine

/-- uPRGA (rule R74): one generator step, with the word `W` it emits. `S[i]` is read with the new `i` and before the swap; the two
words summed into `t`, and `S[t]`, are read after it. -/
def uPRGA (s : State) : Except Fault (State × Word) :=
  let i := add16 s.i 1
  match s.S.fetch .S i.toNat with
  | .error f => .error f
  | .ok a =>
    let j := add16 a s.j
    match s.S.swap i j with
    | .error f => .error f
    | .ok m =>
      match m.fetch .S i.toNat, m.fetch .S j.toNat with
      | .ok si, .ok sj =>
        match m.fetch .S (add16 si sj).toNat with
        | .ok w => .ok ({ s with S := m, i := i, j := j }, w)
        | .error f => .error f
      | .error f, _ => .error f
      | .ok _, .error f => .error f

/-- uDROP (rule R76): one generator step whose word is thrown away; the last goes to READY. -/
def uDROP (s : State) : Except Fault State :=
  match uPRGA s with
  | .ok (t, _) => .ok (if t.lastOf Config.dropSteps then t.goto .ready else t.count)
  | .error f => .error f

/-- uEXTRACT (rule R78): the middle eight bits of an emitted word. -/
def uEXTRACT (w : Word) : Byte := extract w

end Sys2Proof.Machine
end

