-- ==== Sys2Proof/Machine/CipherStream.lean ====
section
/-! DEFINITION. Family 4, the cipher stream (spec/43_cipher_stream.md): the command CRYPT and the micro-operation uXOR. -/

namespace Sys2Proof.Machine

/-- uXOR (rule R80): the output byte, input byte XOR keystream byte. -/
def uXOR (d ks : Byte) : Byte := xorByte d ks

/-- The effect of CRYPT in READY (rule R81): one generator step, one extraction, one XOR, one output byte. -/
def encryptByte (s : State) (data : Byte) : Except Fault State :=
  match uPRGA s with
  | .ok (t, w) => .ok (t.respond (uXOR data (uEXTRACT w)))
  | .error f => .error f

/-- CRYPT (rule R81): process one data byte. SequenceError in KEYLOAD, no effect in ERROR (rule R58). -/
def execCrypt (data : Byte) (s : State) : Result := onlyIn .ready s (outcomeOf (encryptByte s data))

end Sys2Proof.Machine
end

