-- ==== Sys2Proof/Machine/Control.lean ====
section
/-! DEFINITION. Family 5, the control commands (spec/44_control.md). -/

namespace Sys2Proof.Machine

/-- RST (rule R85): reset every register and answer 0x0000, alike in KEYLOAD, READY and ERROR. -/
def execRst (s : State) : Result := whenAccepting s (.next (s.resetCore.respond 0))

/-- STAT (rule R86): answer `{STATUS, 0x00}` and write nothing, alike in KEYLOAD, READY and ERROR. -/
def execStat (s : State) : Result := whenAccepting s (.next (s.respond 0))

end Sys2Proof.Machine
end

