-- ==== Sys2Proof/Machine/KeyIngestion.lean ====
section
/-! DEFINITION. Family 1, key ingestion (spec/40_key_ingestion.md). -/

namespace Sys2Proof.Machine

/-- The write of `K` that stores a key byte (rule R63): the byte in even position writes the whole word with a zero low byte, the
byte in odd position writes the low byte. -/
def storeKeyByte (s : State) (data : Byte) : Except Fault Memory :=
  if firstOfPair s.klen then s.K.put .K (keyByteIndex s.klen) (pair data 0)
  else s.K.putLow .K (keyByteIndex s.klen) data

/-- The effect of KEYB in KEYLOAD, before the response (rules R63, R67): the byte is stored and counted, or, when `K` is full,
dropped with `KTRUNC` set. -/
def ingestKeyByte (s : State) (data : Byte) : Except Fault State :=
  if s.klen.toNat = Config.keyMaxBytes then .ok { s with ktrunc := true }
  else
    match storeKeyByte s data with
    | .ok k => .ok { s with K := k, klen := s.klen + 1 }
    | .error f => .error f

/-- KEYB (rule R63): append one key byte. SequenceError in READY, no effect in ERROR (rule R58). -/
def execKeyb (data : Byte) (s : State) : Result :=
  onlyIn .keyload s (outcomeOf ((ingestKeyByte s data).map fun t => t.respond 0))

end Sys2Proof.Machine
end

