-- ==== Sys2Proof/Machine/KeySchedule.lean ====
section
/-! DEFINITION. Family 2, the key schedule (spec/41_key_schedule.md): the command SCHED and the micro-operations uFILL and
uKSA. -/

namespace Sys2Proof.Machine

/-- uFILL (rule R70): `S[x] <- x`; the last step clears `j` and goes to KSA. -/
def uFILL (s : State) : State :=
  let x := loopIndex s.cnt
  let s := { s with S := s.S.write x.toNat x }
  if s.lastOf Config.fillSteps then { s with j := 0 }.goto .ksa else s.count

/-- The key word that iteration `x` of the key schedule adds: `K[x mod N]` (rule R71). -/
def scheduledKeyWord (s : State) (x : Word) : Except Fault Word :=
  match cyclicIndex x (keyWordCount s.klen) with
  | some a => s.K.fetch .K a
  | none => .error .emptyKeyModulus

/-- uKSA (rule R71): `j <- add16(j, S[x], K[x mod N])`, then `swap(S, x, j)` with the new `j`; the last step drops the
accumulator (`i <- 0; j <- 0`) and goes to DROP. -/
def uKSA (s : State) : Except Fault State :=
  let x := loopIndex s.cnt
  match s.S.fetch .S x.toNat, scheduledKeyWord s x with
  | .ok a, .ok k =>
    let j := add16Three s.j a k
    match s.S.swap x j with
    | .ok m =>
      let s := { s with S := m, j := j }
      .ok (if s.lastOf Config.ksaSteps then { s with i := 0, j := 0 }.goto .drop else s.count)
    | .error f => .error f
  | .error f, _ => .error f
  | .ok _, .error f => .error f

/-- SCHED as it is taken (rules R69, R23): KeyScheduleError on the empty key, before any micro-step; otherwise `goto FILL`, after
which the core makes its micro-steps on its own and answers when it reaches READY (`uDROP`, `microStep`; DEDUCED,
assumption 3; safe).
SequenceError in READY, no effect in ERROR (rule R58). -/
def execSched (s : State) : Result :=
  onlyIn .keyload s
    (if s.klen = 0 then .next (s.raise .keyScheduleError) else .next (s.goto .fill))

end Sys2Proof.Machine
end

