-- ==== Sys2Proof/Machine/Dispatch.lean ====
section
/-! DEFINITION. One arm for each command (spec/30_encoding.md rule R58). Each meaning makes the tests of rule R58 that concern its
command, in that rule's order; an illegal word never reaches here. -/

namespace Sys2Proof.Machine

def exec (i : Instr) (s : State) : Host.Outcome State Fault Refusal :=
  match i with
  | .rst => Sys2Proof.Machine.execRst s
  | .keyb data => Sys2Proof.Machine.execKeyb data s
  | .sched => Sys2Proof.Machine.execSched s
  | .crypt data => Sys2Proof.Machine.execCrypt data s
  | .stat => Sys2Proof.Machine.execStat s

end Sys2Proof.Machine
end

