-- ==== Sys2Proof/Machine/Transaction.lean ====
section
/-! DEFINITION. One step of the machine (spec/10_state.md rules R23, R24; spec/30_encoding.md rule R52): a command taken from the
host, or one micro-step of the command in progress, or a hard reset. -/

namespace Sys2Proof.Machine

/-- The end of SCHED (rule R69): when the last uDROP has reached READY, `respond(0x00)`. -/
def finishSched (s : State) : State := if s.phase = .ready then s.respond 0 else s

/-- What the core does on its own (rule R23): one micro-step in FILL, KSA and DROP; nothing in the phases that wait for a command,
where "the core is idle and keeps all state" (rule R103). -/
def microStep (s : State) : Result :=
  match s.phase with
  | .fill => .next (uFILL s)
  | .ksa => outcomeOf (uKSA s)
  | .drop => outcomeOf ((uDROP s).map finishSched)
  | .keyload => .next s
  | .ready => .next s
  | .error => .next s

/-- A command word is taken: decoded and executed, or answered as illegal (rule R58). -/
def takeCommand (w : Word) (s : State) : Result :=
  match decode w with
  | .ok i => exec i s
  | .error _ => takeIllegal s

/-- One step, by the host's next move. A command waits until the core takes commands (rules R24, R52). A hard reset strikes in any
phase, abandoning the command in progress without a response (rule R105); until then the core goes on by itself.

SCHED is the one command of more than one step, so it alone is abandoned midway. KEYB, CRYPT, RST, STAT and a command that raises an
error are one step with their response, as rule R24 allows (DESIGN CHOICE, assumption 13; safe): a hard reset in the middle of one is the
move `hardReset 0` in that command's place, which likewise gives no response and the reset values (U10). -/
def advance (s : State) : Result :=
  match s.host with
  | [] => microStep s
  | .command w :: rest => if s.phase.accepting then takeCommand w { s with host := rest } else microStep s
  | .hardReset 0 :: rest => .next { s with host := rest }.resetCore
  | .hardReset (delay + 1) :: rest => microStep { s with host := .hardReset delay :: rest }

/-- Micro-steps until the core takes commands again, at most as many as the first argument allows (rule R111). -/
def settle : Nat → State → Result
  | 0, s => .next s
  | n + 1, s =>
    if s.phase.accepting then .next s
    else
      match microStep s with
      | .next t => settle n t
      | .fault f => .fault f
      | .refused r => .refused r

/-- A whole transaction as one function of the state and the command word (rules R24, R52, R58): the command is taken and executed
to completion. `step` reaches the same state by micro-steps. -/
def transact (w : Word) (s : State) : Result :=
  match takeCommand w s with
  | .next t => settle Config.scheduleSteps t
  | .fault f => .fault f
  | .refused r => .refused r

/-- The state whose host presents a command word before all its other moves. -/
def State.present (s : State) (w : Word) : State := { s with host := .command w :: s.host }

end Sys2Proof.Machine
end

