-- ==== Sys2Proof/Machine/Algorithm.lean ====
section
/-! DEFINITION. The cipher as pure functions, the way the spec first states it: key words (spec/40_key_ingestion.md rule R62), key
schedule (spec/41_key_schedule.md rule R68), generator sequence and keystream (spec/42_keystream.md rules R74, R75, R79). `step`
never calls them; statements hold the machine against them. -/

namespace Sys2Proof.Machine

/-- A permutation table as a function of the index. -/
abbrev Table := Word → Word

/-- The table with two entries exchanged (rule R43). -/
def Table.swap (t : Table) (a b : Word) : Table := fun x => if x = a then t b else if x = b then t a else t x

/-- `keywords(B)` (rule R62): consecutive bytes paired, first byte high, an odd last byte padded with a zero low byte. -/
def keywords : List Byte → List Word
  | [] => []
  | [h] => [pair h 0]
  | h :: l :: rest => pair h l :: keywords rest

/-- One iteration of the key-scheduling loop (rule R68), with `N = words.length >= 1`. Rule R68 defines the schedule for no empty key
word list; there this function adds 0 for the key word (DESIGN CHOICE, assumption 12; unsafe), and no statement rests on it. -/
def ksaRound (words : List Word) (st : Table × Word) (x : Word) : Table × Word :=
  let j := add16Three st.2 (st.1 x) (words.getD (x.toNat % words.length) 0)
  (st.1.swap x j, j)

/-- The table and the accumulator after the first `n` iterations, `x = 0 .. n - 1` in increasing order (rule R68). -/
def ksaRounds (words : List Word) : Nat → Table × Word
  | 0 => (id, 0)
  | n + 1 => ksaRound words (ksaRounds words n) (BitVec.ofNat 16 n)

/-- `ksa(K[0..N-1])` (rule R68): the table after all iterations; the final accumulator is discarded. -/
def ksa (words : List Word) : Table := (ksaRounds words Config.ksaSteps).1

/-- The generator: "the tuple (S, i, j)" (rule R15). -/
structure Generator where
  table : Table
  i : Word
  j : Word

/-- The generator a key schedule leaves: starting indices `i = j = 0` (rules R71, R74). -/
def Generator.start (t : Table) : Generator := ⟨t, 0, 0⟩

/-- One generation step (rule R74), without the word it emits. -/
def Generator.next (g : Generator) : Generator :=
  let i := add16 g.i 1
  let j := add16 (g.table i) g.j
  ⟨g.table.swap i j, i, j⟩

/-- The word emitted by the step that led to this generator: `S[(S[i] + S[j]) mod 65536]`, all read after the swap (rule R74). -/
def Generator.emitted (g : Generator) : Word := g.table (add16 (g.table g.i) (g.table g.j))

/-- The generator after `n` steps (rule R75). -/
def Generator.after (g : Generator) : Nat → Generator
  | 0 => g
  | n + 1 => (g.after n).next

/-- The generator of a key, at its starting indices: `S = ksa(keywords(first 131072 bytes of B))` (rules R67, R79). -/
def keyGenerator (key : List Byte) : Generator :=
  Generator.start (ksa (keywords (key.take Config.keyMaxBytes)))

/-- `W(n)` of a key, `n = 1, 2, ...` (rule R75). -/
def generatedWord (key : List Byte) (n : Nat) : Word := ((keyGenerator key).after n).emitted

/-- `ks(m) = extract(W(786432 + m))`, `m = 1, 2, ...` (rules R77, R79), for a key of at least one byte; rule R79 gives the empty key no
keystream, and this function's value there is the model's (DESIGN CHOICE, assumption 12; unsafe). -/
def keystreamByte (key : List Byte) (m : Nat) : Byte := extract (generatedWord key (Config.dropSteps + m))

/-- `Cipher(K, P)` (rules R82, R84): output byte `m` is `DATA(m) XOR ks(m)`, `m = 1, 2, ...`, for a key of at least one byte; its value
for the empty key, which the spec leaves open, is the model's (DESIGN CHOICE, assumption 12; unsafe). -/
def cipher (key data : List Byte) : List Byte :=
  data.zipIdx.map fun p => xorByte p.1 (keystreamByte key (p.2 + 1))

end Sys2Proof.Machine
end

