-- ==== Sys2Proof/Machine/Assembler.lean ====
section
/-! DEFINITION. The assembler's text (spec/30_encoding.md rules R60, R61; DESIGN CHOICE, assumption 8; safe): one command or
pseudo-command a line, a mnemonic in capitals with its byte operands as hexadecimal or decimal literals, and comments from `--` to
the end of the line. -/

namespace Sys2Proof.Machine

/-- What a line of text is made of. -/
inductive Token where
  | word (text : List Char)
  | comma
  | semicolon
deriving DecidableEq, Repr

/-- The value of one digit. -/
def digitValue (base : Nat) (c : Char) : Option Nat :=
  let v :=
    if '0' ≤ c ∧ c ≤ '9' then c.toNat - '0'.toNat
    else if 'A' ≤ c ∧ c ≤ 'F' then c.toNat - 'A'.toNat + 10
    else if 'a' ≤ c ∧ c ≤ 'f' then c.toNat - 'a'.toNat + 10
    else base
  if v < base then some v else none

/-- The value of a string of digits, most significant first. -/
def digitsValue (base : Nat) (acc : Nat) : List Char → Option Nat
  | [] => some acc
  | c :: cs =>
    match digitValue base c with
    | some v => digitsValue base (acc * base + v) cs
    | none => none

/-- A literal: `0x` prefixes hexadecimal, a plain numeral is decimal (spec/00_scope.md section 5). -/
def literalValue : List Char → Option Nat
  | '0' :: 'x' :: c :: cs => digitsValue 16 0 (c :: cs)
  | [] => none
  | c :: cs => digitsValue 10 0 (c :: cs)

/-- The text before a comment. -/
def dropComment : List Char → List Char
  | [] => []
  | c :: cs => if c = '-' ∧ cs.head? = some '-' then [] else c :: dropComment cs

/-- A word read so far, as tokens. -/
def flushWord (current : List Char) : List Token := if current = [] then [] else [.word current]

/-- The tokens of a text without comments; `current` is the word being read. -/
def tokens (current : List Char) : List Char → List Token
  | [] => flushWord current
  | c :: cs =>
    if c = ' ' ∨ c = '\t' then flushWord current ++ tokens [] cs
    else if c = ',' then flushWord current ++ .comma :: tokens [] cs
    else if c = ';' then flushWord current ++ .semicolon :: tokens [] cs
    else tokens (current ++ [c]) cs

/-- Literals after the first of a list, each behind a comma. -/
def moreOperands : List Token → Option (List Nat)
  | [] => some []
  | .comma :: .word w :: ts =>
    match literalValue w, moreOperands ts with
    | some n, some ns => some (n :: ns)
    | _, _ => none
  | _ => none

/-- A list of literals separated by commas, possibly empty (rule R61: `KEY` "with no operands it expands to nothing"). -/
def operands : List Token → Option (List Nat)
  | [] => some []
  | ts => moreOperands (.comma :: ts)

/-- The two operand lists of `SESSION key; data`. -/
def sessionOperands (ts : List Token) : Option (List Nat × List Nat) :=
  match operands (ts.takeWhile (· != .semicolon)), ts.dropWhile (· != .semicolon) with
  | some key, .semicolon :: rest => (operands rest).map fun data => (key, data)
  | _, _ => none

/-- A line from its mnemonic and operand tokens (rules R60, R61). -/
def lineOfTokens (mnemonic : List Char) (ts : List Token) : Option Line :=
  if mnemonic = "RST".toList ∧ ts = [] then some .rst
  else if mnemonic = "SCHED".toList ∧ ts = [] then some .sched
  else if mnemonic = "STAT".toList ∧ ts = [] then some .stat
  else if mnemonic = "KS".toList ∧ ts = [] then some .ks
  else if mnemonic = "KEYB".toList then
    match operands ts with
    | some [n] => some (.keyb n)
    | _ => none
  else if mnemonic = "CRYPT".toList then
    match operands ts with
    | some [n] => some (.crypt n)
    | _ => none
  else if mnemonic = "KEY".toList then (operands ts).map .key
  else if mnemonic = "STREAM".toList then (operands ts).map .stream
  else if mnemonic = "SESSION".toList then (sessionOperands ts).map fun p => .session p.1 p.2
  else none

/-- The lines a line of text holds: one, or none where it is blank or only a comment. -/
def parseLine (text : List Char) : Option (List Line) :=
  match tokens [] (dropComment text) with
  | [] => some []
  | .word mnemonic :: ts => (lineOfTokens mnemonic ts).map fun l => [l]
  | _ => none

/-- The text cut at line ends; `current` is the line being read. -/
def textLines (current : List Char) : List Char → List (List Char)
  | [] => [current]
  | c :: cs => if c = '\n' then current :: textLines [] cs else textLines (current ++ [c]) cs

/-- The lines of all texts, if every one of them can be read. -/
def parseLines : List (List Char) → Option (List Line)
  | [] => some []
  | t :: ts =>
    match parseLine t, parseLines ts with
    | some l, some ls => some (l ++ ls)
    | _, _ => none

/-- The command words of a program text, in order (rule R60). -/
def assembleText (text : List Char) : Option (List Word) := (parseLines (textLines [] text)).bind assemble

end Sys2Proof.Machine
end

