-- ==== Sys2Proof/Safety.lean ====
section
/-! DEFINITION. What the statements are made of: the invariant of the core's state, and runs of the machine. -/

namespace Sys2Proof.Machine

/-- The core is in the middle of SCHED, taking no command (rule R24). -/
def State.busy (s : State) : Bool := !s.phase.accepting

/-- The host's next move is a hard reset that strikes in this step. -/
def State.resetStrikes (s : State) : Bool := s.host.head? == some (.hardReset 0)

/-- The host's next move is a hard reset, now or later. -/
def State.resetPending (s : State) : Bool :=
  match s.host with
  | .hardReset _ :: _ => true
  | .command _ :: _ => false
  | [] => false

/-- The word the core takes in this step, if it takes one (rules R24, R52). -/
def State.taken (s : State) : Option Word :=
  match s.host with
  | .command w :: _ => if s.phase.accepting then some w else none
  | .hardReset _ :: _ => none
  | [] => none

/-- `S` holds every 16-bit value exactly once (rule R32). -/
def Memory.IsPermutation (m : Memory) : Prop :=
  (∀ a : Word, ∃ v : Word, m.read? a.toNat = some v) ∧ ∀ v : Word, ∃! a : Word, m.read? a.toNat = some v

/-- The memory's words are those of a table. -/
def Memory.Holds (m : Memory) (t : Table) : Prop := ∀ a : Word, m.read? a.toNat = some (t a)

/-- The first `n` words of `m` have been written. -/
def Memory.WrittenBelow (m : Memory) (n : Nat) : Prop := ∀ a < n, ∃ v : Word, m.read? a = some v

/-- The key words of a session: word `a` of `K` is entry `a` of the list, for every entry. -/
def Memory.HoldsWords (m : Memory) (words : List Word) : Prop := ∀ a < words.length, m.read? a = words[a]?

/-- What holds of the core at reset and after every step. -/
structure State.Inv (s : State) : Prop where
  /-- `S` keeps its canonical form. -/
  canonicalS : s.S.wf
  /-- `K` keeps its canonical form. -/
  canonicalK : s.K.wf
  /-- `KLEN` is never past 131072 (rule R25). -/
  klenBound : s.klen.toNat ≤ Config.keyMaxBytes
  /-- `KTRUNC` is set only once `K` is full (rule R26). -/
  truncFull : s.ktrunc = true → s.klen.toNat = Config.keyMaxBytes
  /-- `ECODE != 0` exactly when `PHASE = ERROR` (rule R27). -/
  causeInError : s.ecode ≠ .none ↔ s.phase = .error
  /-- `CNT` stays in the range of its phase, and is 0 wherever a command can be taken (rule R22). -/
  cntRange : s.cnt.toNat < s.phase.steps
  /-- Every key word `K[0] .. K[N-1]` was written in this session (rule R51). -/
  keyWritten : s.K.WrittenBelow (keyWordCount s.klen)
  /-- The last word of an odd-length key has a zero low byte (rules R63, R65). -/
  oddPadded : firstOfPair s.klen = false →
    ∃ h : Byte, s.K.read? (keyByteIndex s.klen) = some (pair h 0)
  /-- A schedule begins only with a key (rule R69). -/
  keyed : s.phase ≠ .keyload → s.phase ≠ .error → 1 ≤ s.klen.toNat
  /-- `i` is 0 from reset until the first generator step (rule R17). -/
  indexZero : s.phase = .keyload ∨ s.phase = .fill ∨ s.phase = .ksa → s.i = 0
  /-- `j` is 0 from reset until the key schedule begins (rules R18, R35). -/
  accumulatorZero : s.phase = .keyload ∨ s.phase = .fill → s.j = 0
  /-- In DROP `i` counts the generator steps modulo 65536 (rules R17, R76). -/
  indexCounts : s.phase = .drop → s.i = loopIndex s.cnt
  /-- In FILL the words below `CNT` hold the identity (rule R70). -/
  filled : s.phase = .fill → ∀ a < s.cnt.toNat, s.S.read? a = some (BitVec.ofNat 16 a)
  /-- From the end of FILL on, `S` is a permutation (rule R32). -/
  permuted : s.phase = .ksa ∨ s.phase = .drop ∨ s.phase = .ready → s.S.IsPermutation

/-- The moves of a host that issues commands and nothing else. -/
def commandMoves (cs : List Instr) : List HostMove := cs.map fun c => .command (encode c)

/-- The state with a list of host moves in place of those it had. -/
def State.withHost (s : State) (moves : List HostMove) : State := { s with host := moves }

/-- `n` steps of the machine, stopping at the first fault or refusal (the same run as `Host.Core.run Sys2Proof.core`). -/
def runSteps : Nat → State → Result
  | 0, s => .next s
  | n + 1, s =>
    match step s with
    | .next t => runSteps n t
    | .fault f => .fault f
    | .refused r => .refused r

/-- The steps a whole session takes: RST, a KEYB for each key byte, SCHED with its micro-steps, and a CRYPT for each data byte
(rules R61, R110). -/
def sessionSteps (key data : List Byte) : Nat := 1 + key.length + (1 + Config.scheduleSteps) + data.length

/-- `SESSION key; data` run from a state (rule R61). -/
def runSession (key data : List Byte) (s : State) : Result :=
  runSteps (sessionSteps key data) (s.withHost (commandMoves (sessionCommands key data)))

/-- The output bytes of the last `n` responses (rules R52, R82): the `DOUT` fields of the responses to the CRYPT commands. -/
def State.lastOutputs (s : State) (n : Nat) : List Byte :=
  (s.responses.drop (s.responses.length - n)).map responseDout

end Sys2Proof.Machine
end

