-- ==== Sys2Proof/Certificates/Slice0/Obligations.lean ====
section
/-! DEFINITION. The statements for the provers, each a `Prop` named for what it states. `S.Holds f` says that word `a` of the
memory is `f a` for every `a`; `respond d` appends the one response word `{STATUS, d}` (`RespondAppendsStatusAndByte` says
which) and changes nothing else. The moves of the host and the list of responses are the model's form of the interface (assumption 2);
that `S` and `K` list no word after a reset is the model's form of "unspecified" (assumption 1). -/

open Sys2Proof Sys2Proof.Machine

/-! ### Arithmetic (spec/00_scope.md section 6) -/

/-- Rule R9: `add16` is the sum modulo 65536, with two and with three operands; reducing once equals reducing after each
addition; and the rule's two worked corners. -/
def Obligations.AddSixteenIsTheSumModulo65536 : Prop :=
  (∀ a b : Word, (add16 a b).toNat = (a.toNat + b.toNat) % 65536 ∧
    (add16 a b).toNat = (a.toNat + b.toNat) &&& 0xFFFF) ∧
  (∀ a b c : Word, (add16Three a b c).toNat = (a.toNat + b.toNat + c.toNat) % 65536 ∧
    a.toNat + b.toNat + c.toNat ≤ 196605 ∧ add16Three a b c = add16 (add16 a b) c) ∧
  add16 65535 1 = 0 ∧ add16Three 65535 65535 65535 = 65533

/-- Rule R10: `extract` is a logical right shift by 4 and a mask to 8 bits, equals the field `W[11:4]`, does not depend on bits
15..12 and 3..0, and has the rule's worked values. -/
def Obligations.ExtractTakesTheMiddleByte : Prop :=
  (∀ w : Word, (extract w).toNat = (w.toNat / 16) &&& 0xFF ∧ extract w = w.extractLsb' 4 8) ∧
  (∀ v w : Word, (∀ n, 4 ≤ n → n ≤ 11 → v.getLsbD n = w.getLsbD n) → extract v = extract w) ∧
  extract 0x1234 = 0x23 ∧ extract 0xF00F = 0x00 ∧ extract 0x0FF0 = 0xFF ∧ extract 0xFFFF = 0xFF ∧ extract 0x0000 = 0x00

/-- Rule R11 and rule R80: the XOR of two bytes is bitwise and self-inverse; uXOR is that XOR of the input byte and the keystream
byte, with the corner cases and the worked example of rule R80. -/
def Obligations.XorCombinesBytesAndUndoesItself : Prop :=
  (∀ (a b : Byte) (n : Nat), n < 8 → (xorByte a b).getLsbD n = (a.getLsbD n != b.getLsbD n)) ∧
  (∀ a b : Byte, xorByte (xorByte a b) b = a) ∧
  (∀ d ks : Byte, uXOR d ks = xorByte d ks) ∧
  (∀ ks : Byte, uXOR 0x00 ks = ks ∧ uXOR ks ks = 0x00 ∧ uXOR 0xFF ks = ~~~ks) ∧
  uXOR 0x41 0x43 = 0x02

/-- Rule R13: `pair(h, l)` has `h` in bits 15..8 and `l` in bits 7..0. -/
def Obligations.PairPutsTheFirstByteHigh : Prop :=
  ∀ h l : Byte, pair h l = (h.setWidth 16 <<< 8) ||| l.setWidth 16 ∧
    (pair h l).extractLsb' 8 8 = h ∧ (pair h l).extractLsb' 0 8 = l

/-- Rules R12 and R25: `x mod N` for `N >= 1`, below `N`, equal to `x` when `N = 65536`; no value for `N = 0`; and the key word
count is half the key byte count, rounded up. -/
def Obligations.CyclicIndexIsTheGuardedRemainder : Prop :=
  (∀ (x : Word) (n : Nat), 1 ≤ n → n ≤ 65536 →
    cyclicIndex x n = some (x.toNat % n) ∧ x.toNat % n < n ∧ (n = 65536 → cyclicIndex x n = some x.toNat)) ∧
  (∀ x : Word, cyclicIndex x 0 = none) ∧
  (∀ k : BitVec 18, k.toNat ≤ 2 * keyWordCount k ∧ 2 * keyWordCount k ≤ k.toNat + 1)

/-! ### The response (spec/10_state.md rule R28, spec/30_encoding.md rule R54) -/

/-- Rules R28, R54: a response is one word, `STATUS` in bits 15..8 and `DOUT` in bits 7..0; `STATUS` is `PHASE` in bits 2:0,
`KTRUNC` in bit 3, `ECODE` in bits 7:4, with the codes of rules R21 and R27; forming it changes nothing else. -/
def Obligations.RespondAppendsStatusAndByte : Prop :=
  (∀ (s : State) (d : Byte), ∃ r : Word, s.respond d = { s with responses := s.responses ++ [r] } ∧
    responseStatus r = s.status ∧ responseDout r = d ∧ responsePhase r = s.phase.code ∧
    s.status.extractLsb' 0 3 = s.phase.code ∧ s.status.getLsbD 3 = s.ktrunc ∧ s.status.extractLsb' 4 4 = s.ecode.code) ∧
  [Phase.keyload, .fill, .ksa, .drop, .ready, .error].map Phase.code = [0, 1, 2, 3, 4, 7] ∧
  [Cause.none, .keyScheduleError, .illegalCommand, .sequenceError].map Cause.code = [0, 1, 2, 3]

/-- Rules R28, R54, R100: in a state that meets the invariant, a response that a step returns carries one of the ten status values,
the status of the state it leaves; and a byte other than 0x00 comes only with PHASE = READY, from a CRYPT. -/
def Obligations.EveryResponseCarriesOneOfTenStatuses : Prop :=
  ∀ (s t : State) (r : Word), s.Inv → step s = .next t → t.responses = s.responses ++ [r] →
    responseStatus r = t.status ∧
    responseStatus r ∈ ([0x00, 0x08, 0x04, 0x0C, 0x17, 0x1F, 0x27, 0x2F, 0x37, 0x3F] : List Byte) ∧
    (responseDout r ≠ 0 → carriesOutput r = true ∧ ∃ d, s.taken = some (encode (.crypt d)))

/-- Rule R52: a step returns at most one response, and it returns one exactly when it completes a command: a command taken that does
not start a schedule, or the last micro-step of SCHED. -/
def Obligations.EveryCommandGetsExactlyOneResponse : Prop :=
  ∀ s t : State, step s = .next t →
    if (s.taken ≠ none ∧ t.phase ≠ .fill) ∨ (s.phase = .drop ∧ t.phase = .ready) then
      ∃ r, t.responses = s.responses ++ [r]
    else t.responses = s.responses

/-! ### Memories (spec/20_memory.md) -/

/-- Rule R43: `swap(S, a, b)` exchanges the two words and leaves all others; when `a = b` it leaves `S` unchanged. -/
def Obligations.SwapExchangesTwoWords : Prop :=
  ∀ (m : Memory) (a b v w : Word), m.read? a.toNat = some v → m.read? b.toNat = some w →
    ∃ m' : Memory, m.swap a b = .ok m' ∧
      m'.read? a.toNat = some w ∧ m'.read? b.toNat = some v ∧
      (∀ c : Nat, c ≠ a.toNat → c ≠ b.toNat → m'.read? c = m.read? c) ∧
      (a = b → ∀ c : Nat, m'.read? c = m.read? c) ∧ (a = b → m.wf → m' = m)

/-- The canonical form of a memory (assumption 1): two canonical memories that read alike at every index are the same list. -/
def Obligations.CanonicalMemoriesThatReadAlikeAreEqual : Prop :=
  ∀ m n : Memory, m.wf → n.wf → (∀ a : Nat, m.read? a = n.read? a) → m = n

/-! ### Encoding (spec/30_encoding.md) -/

/-- Rules R56, R57: the decoder accepts exactly the words of rule R57's formula, which are exactly the words that some row of rule
R56's table selects; and no word selects two rows. -/
def Obligations.LegalWordsAreTheWordsOfTheTable : Prop :=
  ∀ w : Word,
    ((∃ i, decode w = .ok i) ↔ legal w = true) ∧
    (legal w = true ↔ ∃ i, (opcodeRow i).selects w = true) ∧
    ∀ i i', (opcodeRow i).selects w = true → (opcodeRow i').selects w = true → opcodeRow i = opcodeRow i'

/-- Decoding and encoding agree, both ways: every well-formed command decodes from its word, and every word that decodes is the
word of the command it decodes to, so that no bit of an encoding is dropped. -/
def Obligations.DecodeInvertsEncode : Prop :=
  (∀ i : Instr, i.wf = true → decode (encode i) = .ok i) ∧
  (∀ (w : Word) (i : Instr), decode w = .ok i → w = encode i ∧ i.wf = true)

/-- Words of spec/95_test_vectors.md section 2.8 decode as that table says, legal and illegal. -/
def Obligations.WordsOfTheSpecDecode : Prop :=
  decode 0x1000 = .ok .rst ∧ decode 0x20AB = .ok (.keyb 0xAB) ∧ decode 0x2000 = .ok (.keyb 0x00) ∧
  decode 0x3000 = .ok .sched ∧ decode 0x4041 = .ok (.crypt 0x41) ∧ decode 0x40FF = .ok (.crypt 0xFF) ∧
  decode 0x5000 = .ok .stat ∧
  (∀ w ∈ ([0x0000, 0x0041, 0x1001, 0x2F00, 0x3080, 0x4100, 0x5001, 0x6000, 0xFFFF] : List Word), legal w = false)

/-- Rule R61: the expansion of each pseudo-command, for operands that are bytes. -/
def Obligations.PseudoCommandsExpand : Prop :=
  Line.expand .ks = [.crypt 0x00] ∧ Line.expand (.key []) = [] ∧
  ∀ key data : List Byte,
    Line.expand (.key (key.map BitVec.toNat)) = key.map .keyb ∧
    Line.expand (.stream (data.map BitVec.toNat)) = data.map .crypt ∧
    Line.expand (.session (key.map BitVec.toNat) (data.map BitVec.toNat)) =
      [.rst] ++ key.map .keyb ++ [.sched] ++ data.map .crypt

/-! ### Reset and the invariant (spec/10_state.md) -/

/-- Rule R35: the register values after reset, with `STATUS` = 0x00. Two clauses are the model's choice: that no word of `S` or `K` is
written is its reading of "unspecified" (assumption 1), and that no host move and no response is there is its own (assumption 2). -/
def Obligations.ResetLeavesTheStatedValues : Prop :=
  let s := State.reset
  s.phase = .keyload ∧ s.cnt = 0 ∧ s.i = 0 ∧ s.j = 0 ∧ s.klen = 0 ∧ s.ktrunc = false ∧ s.ecode = .none ∧ s.status = 0x00 ∧
  (∀ a : Nat, s.S.read? a = none ∧ s.K.read? a = none) ∧ s.host = [] ∧ s.responses = []

/-- The reset state meets the invariant. -/
def Obligations.ResetMeetsTheInvariant : Prop := State.reset.Inv

/-- The invariant (canonical memories, `KLEN <= 131072`, `KTRUNC` only when full, `ECODE != 0` exactly in ERROR, `CNT` in its range,
every key word written, `i` and `j` as rules R17 to R19 say, `S` a permutation from the end of FILL on) is kept by every step. -/
def Obligations.EveryStepKeepsTheInvariant : Prop :=
  ∀ s t : State, s.Inv → step s = .next t → t.Inv

/-- Rules R39, R51, R94: no step from a state that meets the invariant reads an unwritten word, leaves a memory, or evaluates a
remainder by 0; the core always has a next state. -/
def Obligations.NoStepStopsInsideTheInvariant : Prop :=
  ∀ s : State, s.Inv → ∃ t, step s = .next t

/-- Rule R32: the last uFILL leaves `S` a permutation, and from then on, in KSA, DROP, READY and ERROR, every step but a reset keeps
it one. -/
def Obligations.PermutationHoldsFromFillToReset : Prop :=
  (∀ s t : State, s.Inv → s.phase = .fill → step s = .next t → t.phase = .ksa → t.S.IsPermutation) ∧
  (∀ s t : State, (s.phase = .ksa ∨ s.phase = .drop ∨ s.phase = .ready ∨ s.phase = .error) → s.S.IsPermutation →
    step s = .next t → t.phase ≠ .keyload → t.S.IsPermutation)

/-- Rules R33, R51: what `S` and `K` hold at reset reaches no response. Whatever words the memories list, a run from reset under any
host goes on for ever, and the responses are the same. -/
def Obligations.ResetContentsReachNoResponse : Prop :=
  ∀ (n : Nat) (moves : List HostMove) (S₁ K₁ S₂ K₂ : Memory),
    ∃ t₁ t₂ : State,
      runSteps n { State.reset with S := S₁, K := K₁, host := moves } = .next t₁ ∧
      runSteps n { State.reset with S := S₂, K := K₂, host := moves } = .next t₂ ∧
      t₁.responses = t₂.responses

/-! ### One step: commands, micro-steps, resets (spec/10_state.md rules R23, R24; spec/30_encoding.md) -/

/-- A step runs the decoded command: where the core takes commands and the host presents a word that decodes to `i`, the step is
`exec i` on the state without that move. -/
def Obligations.StepRunsTheDecodedCommand : Prop :=
  ∀ (s : State) (w : Word) (rest : List HostMove) (i : Instr),
    s.phase.accepting = true → s.host = .command w :: rest → decode w = .ok i →
    step s = exec i { s with host := rest }

/-- Rules R24, R52: in FILL, KSA and DROP no command is taken. How that shows is the model's choice (assumptions 2 and 5): `exec` refuses
every command there, and a step leaves a presented command with the host. Of an early word the spec itself only says that "the interface
does not take it" and that what a physical interface does with it, "hold it, drop it", is the platform's
(spec/93_implementation_defined.md U7). -/
def Obligations.BusyCoreTakesNoCommand : Prop :=
  (∀ (s : State) (i : Instr), s.busy = true → exec i s = .refused .commandInProgress) ∧
  (∀ s t : State, s.busy = true → s.resetPending = false → step s = .next t → t.host = s.host)

/-- Rule R103: between commands the core is idle and keeps all state. -/
def Obligations.IdleCoreKeepsItsState : Prop :=
  ∀ s : State, s.phase.accepting = true → s.host = [] → step s = .next s

/-- Rule R105: a hard reset strikes in any phase, a command in progress included; every register takes its reset value and no response
is returned. (That no word of the memories then counts as written is assumption 1.) -/
def Obligations.HardResetStrikesInEveryPhase : Prop :=
  ∀ (s : State) (rest : List HostMove), s.host = .hardReset 0 :: rest →
    step s = .next { State.reset with host := rest, responses := s.responses }

/-- A hard reset that is still to come (the model's way to say when it strikes, assumption 2) does not disturb the core: the step is the
one the core makes with no host move, and the delay counts down. -/
def Obligations.PendingHardResetOnlyCountsDown : Prop :=
  ∀ (s t : State) (delay : Nat) (rest : List HostMove), s.host = .hardReset (delay + 1) :: rest →
    step (s.withHost []) = .next t → step s = .next (t.withHost (.hardReset delay :: rest))

/-- Rule R23: every step is an event of the sequencer's table, with the row's next phase, its `CNT`, and the registers the row clears or
sets (`i`, `j`, `ECODE`; all of them for a reset); or no command is there and the core waits. A step that stays in FILL, KSA or DROP
counts up, and only before the phase's last count; `CNT` is cleared by every change of phase but the entry to ERROR, which leaves it
(rule R97). -/
def Obligations.SequencerMakesOnlyTheTabledTransitions : Prop :=
  ∀ s t : State, step s = .next t →
    -- any phase: hard reset or RST
    (t.phase = .keyload ∧ t.cnt = 0 ∧ t.i = 0 ∧ t.j = 0 ∧ t.klen = 0 ∧ t.ktrunc = false ∧ t.ecode = .none ∧
      (s.resetStrikes = true ∨ (s.busy = false ∧ s.taken = some (encode .rst)))) ∨
    -- KEYLOAD to KEYLOAD: KEYB or STAT; READY to READY: CRYPT or STAT; ERROR to ERROR: any word but RST; or no command
    (s.busy = false ∧ t.phase = s.phase ∧ t.cnt = s.cnt ∧ t.ecode = s.ecode ∧
      (s.taken = none ∨
        (s.phase = .keyload ∧ ((∃ d, s.taken = some (encode (.keyb d))) ∨ s.taken = some (encode .stat))) ∨
        (s.phase = .ready ∧ ((∃ d, s.taken = some (encode (.crypt d))) ∨ s.taken = some (encode .stat))) ∨
        (s.phase = .error ∧ s.taken ≠ some (encode .rst)))) ∨
    -- KEYLOAD to FILL: SCHED with a key, nothing else written
    (s.phase = .keyload ∧ s.taken = some (encode .sched) ∧ s.klen ≠ 0 ∧
      ∃ rest, t = { s with phase := .fill, cnt := 0, host := rest }) ∨
    -- FILL to FILL, KSA to KSA, DROP to DROP: a micro-step before the last
    (s.busy = true ∧ t.phase = s.phase ∧ t.cnt = s.cnt + 1 ∧ s.cnt.toNat + 1 ≠ s.phase.steps ∧ t.ecode = s.ecode) ∨
    -- the last micro-step of each
    (s.phase = .fill ∧ s.cnt = 65535 ∧ t.phase = .ksa ∧ t.cnt = 0 ∧ t.j = 0) ∨
    (s.phase = .ksa ∧ s.cnt = 65535 ∧ t.phase = .drop ∧ t.cnt = 0 ∧ t.i = 0 ∧ t.j = 0) ∨
    (s.phase = .drop ∧ s.cnt = 786431 ∧ t.phase = .ready ∧ t.cnt = 0) ∨
    -- KEYLOAD or READY to ERROR
    (t.phase = .error ∧ t.cnt = s.cnt ∧
      ((s.phase = .keyload ∧ s.taken = some (encode .sched) ∧ s.klen = 0 ∧ t.ecode = .keyScheduleError) ∨
        ((s.phase = .keyload ∨ s.phase = .ready) ∧ (∃ w, s.taken = some w ∧ legal w = false) ∧ t.ecode = .illegalCommand) ∨
        (s.phase = .keyload ∧ (∃ d, s.taken = some (encode (.crypt d))) ∧ t.ecode = .sequenceError) ∨
        (s.phase = .ready ∧ ((∃ d, s.taken = some (encode (.keyb d))) ∨ s.taken = some (encode .sched)) ∧
          t.ecode = .sequenceError)))

/-- The write columns of rule R30's access table: which steps can change which of the core's nine pieces of state. Rule R30 marks `S` and
`K` as not written by a reset; that a reset leaves them with no word written is the model's choice (assumption 1), and each clause names
it. -/
def Obligations.StateIsWrittenOnlyAsTheAccessTableSays : Prop :=
  ∀ s t : State, step s = .next t →
    let reset := s.resetStrikes = true ∨ s.taken = some (encode .rst)
    let keyb := s.phase = .keyload ∧ ∃ d, s.taken = some (encode (.keyb d))
    let schedEntry := s.phase = .keyload ∧ s.taken = some (encode .sched) ∧ t.phase = .fill
    let crypt := s.phase = .ready ∧ ∃ d, s.taken = some (encode (.crypt d))
    let errorEntry := s.phase ≠ .error ∧ t.phase = .error
    let lastFill := s.phase = .fill ∧ s.cnt = 65535
    let lastKsa := s.phase = .ksa ∧ s.cnt = 65535
    let lastDrop := s.phase = .drop ∧ s.cnt = 786431
    (t.S ≠ s.S → s.phase = .fill ∨ s.phase = .ksa ∨ s.phase = .drop ∨ crypt ∨ (reset ∧ t.S = [])) ∧
    (t.K ≠ s.K → keyb ∨ (reset ∧ t.K = [])) ∧
    (t.i ≠ s.i → (lastKsa ∧ t.i = 0) ∨ s.phase = .drop ∨ crypt ∨ reset) ∧
    (t.j ≠ s.j → (lastFill ∧ t.j = 0) ∨ s.phase = .ksa ∨ s.phase = .drop ∨ crypt ∨ reset) ∧
    (t.klen ≠ s.klen → keyb ∨ reset) ∧
    (t.ktrunc ≠ s.ktrunc → (keyb ∧ t.ktrunc = true) ∨ reset) ∧
    (t.phase ≠ s.phase → schedEntry ∨ lastFill ∨ lastKsa ∨ lastDrop ∨ errorEntry ∨ reset) ∧
    (t.cnt ≠ s.cnt → schedEntry ∨ s.phase = .fill ∨ s.phase = .ksa ∨ s.phase = .drop ∨ reset) ∧
    (t.ecode ≠ s.ecode → errorEntry ∨ reset)

/-- Rule R24: the micro-steps and the whole-transaction function agree. From a state that meets the invariant, a command presented with no
hard reset behind it runs to completion, and the steps of the machine reach the state the transaction leaves. -/
def Obligations.StepsReachWhatTheTransactionLeaves : Prop :=
  ∀ (s : State) (w : Word) (rest : List HostMove),
    s.Inv → s.phase.accepting = true → s.host = .command w :: rest → (s.withHost rest).resetPending = false →
    ∃ t, transact w (s.withHost rest) = .next t ∧ t.phase.accepting = true ∧ t.host = rest ∧
      ∃ n ≤ Config.scheduleSteps + 1, runSteps n s = .next t

/-! ### Errors (spec/60_exceptions.md) -/

/-- Rule R91: an illegal word taken in KEYLOAD or READY raises IllegalCommand, and nothing of the word is used; the rule's five
examples are illegal. -/
def Obligations.IllegalWordRaisesIllegalCommand : Prop :=
  (∀ (s : State) (w : Word) (rest : List HostMove),
    (s.phase = .keyload ∨ s.phase = .ready) → s.host = .command w :: rest → legal w = false →
    step s = .next (State.respond { s with host := rest, ecode := .illegalCommand, phase := .error } 0)) ∧
  (∀ w ∈ ([0x0000, 0xFFFF, 0x2100, 0x3001, 0x6000] : List Word), legal w = false)

/-- Rule R92: KEYB and SCHED in READY, and CRYPT in KEYLOAD, raise SequenceError and do nothing else. -/
def Obligations.MisplacedCommandRaisesSequenceError : Prop :=
  ∀ s : State,
    (s.phase = .ready → ∀ d : Byte,
      exec (.keyb d) s = .next (State.respond { s with ecode := .sequenceError, phase := .error } 0)) ∧
    (s.phase = .ready → exec .sched s = .next (State.respond { s with ecode := .sequenceError, phase := .error } 0)) ∧
    (s.phase = .keyload → ∀ d : Byte,
      exec (.crypt d) s = .next (State.respond { s with ecode := .sequenceError, phase := .error } 0))

/-- Rule R90: SCHED taken in KEYLOAD with `KLEN = 0` raises KeyScheduleError before any micro-step, and nothing else ever raises
it; with `KLEN >= 1`, `N >= 1`. -/
def Obligations.EmptyKeyAloneRaisesKeyScheduleError : Prop :=
  (∀ s : State, s.phase = .keyload → s.klen = 0 →
    exec .sched s = .next (State.respond { s with ecode := .keyScheduleError, phase := .error } 0)) ∧
  (∀ s t : State, step s = .next t → s.ecode ≠ .keyScheduleError → t.ecode = .keyScheduleError →
    s.phase = .keyload ∧ s.klen = 0 ∧ s.taken = some (encode .sched)) ∧
  (∀ klen : BitVec 18, 1 ≤ klen.toNat → 1 ≤ keyWordCount klen)

/-- Rule R97: whatever error is raised, the entry writes `ECODE` and `PHASE`, returns `{c, KTRUNC, 7}` with `DOUT` = 0x00, and changes
nothing else; and (rule R94) it is raised by a command, in KEYLOAD or READY. -/
def Obligations.ErrorEntryWritesOnlyCauseAndPhase : Prop :=
  ∀ s t : State, step s = .next t → s.phase ≠ .error → t.phase = .error →
    (s.phase = .keyload ∨ s.phase = .ready) ∧
    ∃ (w : Word) (rest : List HostMove) (c : Cause), c ≠ .none ∧ s.host = .command w :: rest ∧
      t = { s with host := rest, ecode := c, phase := .error,
                   responses := s.responses ++ [responseWord (c.code ++ BitVec.ofBool s.ktrunc ++ (7 : BitVec 3)) 0] }

/-- Rule R98: in ERROR every command word but the legal RST leaves all state as it is and is answered with the unchanged `STATUS`, STAT
among them; the legal RST is executed. -/
def Obligations.ErrorPhaseIsSticky : Prop :=
  (∀ (s : State) (w : Word) (rest : List HostMove), s.phase = .error → s.host = .command w :: rest → w ≠ 0x1000 →
    step s = .next { s with host := rest, responses := s.responses ++ [responseWord s.status 0] }) ∧
  (∀ (s : State) (rest : List HostMove), s.phase = .error → s.host = .command 0x1000 :: rest →
    step s = exec .rst { s with host := rest } ∧
    ∃ t, step s = .next t ∧ t.phase = .keyload ∧ t.ecode = .none ∧ t.responses = s.responses ++ [0x0000])

/-- Rule R99: ERROR is left only by a legal RST or a hard reset, and both leave the reset values, `ECODE` cleared. -/
def Obligations.ErrorIsLeftOnlyByReset : Prop :=
  ∀ s t : State, s.phase = .error → step s = .next t → t.phase ≠ .error →
    ∃ rest, (s.host = .command 0x1000 :: rest ∨ s.host = .hardReset 0 :: rest) ∧
      t = { State.reset with host := rest, responses := t.responses }

/-! ### Control commands (spec/44_control.md) -/

/-- Rule R85: RST, in every phase that takes commands, writes every register to its reset value and answers 0x0000. (That no word of the
memories then counts as written is assumption 1.) -/
def Obligations.RstResetsEveryRegister : Prop :=
  ∀ s : State, s.phase.accepting = true →
    exec .rst s = .next { State.reset with host := s.host, responses := s.responses ++ [0x0000] }

/-- Rule R86: STAT, in every phase that takes commands, answers `{STATUS, 0x00}` and writes nothing. -/
def Obligations.StatAnswersAndWritesNothing : Prop :=
  ∀ s : State, s.phase.accepting = true →
    exec .stat s = .next { s with responses := s.responses ++ [responseWord s.status 0x00] }

/-- Rule R86: a STAT put before any run of the machine adds its own response and changes no other. -/
def Obligations.InsertedStatChangesNoOtherResponse : Prop :=
  ∀ (n : Nat) (s t : State) (rest : List HostMove),
    s.phase.accepting = true → s.host = .command (encode .stat) :: rest → runSteps n (s.withHost rest) = .next t →
    ∃ later, t.responses = s.responses ++ later ∧
      runSteps (n + 1) s = .next { t with responses := s.responses ++ [responseWord s.status 0x00] ++ later }

/-! ### Key ingestion (spec/40_key_ingestion.md) -/

/-- Rule R63: KEYB in KEYLOAD. A byte in even position writes the whole word `{DATA, 0x00}`, a byte in odd position the low byte of the
word; `KLEN` counts it. Past 131072 bytes it is dropped and sets `KTRUNC`. -/
def Obligations.KeybStoresOneKeyByte : Prop :=
  ∀ (s : State) (d : Byte), s.phase = .keyload →
    (s.klen.toNat < 131072 → s.klen.toNat % 2 = 0 →
      exec (.keyb d) s =
        .next (State.respond { s with K := s.K.write (s.klen.toNat / 2) (pair d 0), klen := s.klen + 1 } 0)) ∧
    (s.klen.toNat < 131072 → s.klen.toNat % 2 = 1 → ∀ old : Word, s.K.read? (s.klen.toNat / 2) = some old →
      exec (.keyb d) s =
        .next (State.respond { s with K := s.K.write (s.klen.toNat / 2) (pair (old.extractLsb' 8 8) d),
                                      klen := s.klen + 1 } 0)) ∧
    (s.klen.toNat = 131072 → exec (.keyb d) s = .next (State.respond { s with ktrunc := true } 0))

/-- The frame of KEYB (rule R63): every word of `K` but the one the byte goes to, all of `S`, and every register but `KLEN` and `KTRUNC`
are as before; where the byte is dropped, all of `K` and `KLEN` are too. -/
def Obligations.KeybFrame : Prop :=
  ∀ (s t : State) (d : Byte), s.phase = .keyload → exec (.keyb d) s = .next t →
    (∀ a : Nat, a ≠ keyByteIndex s.klen → t.K.read? a = s.K.read? a) ∧
    (s.klen.toNat = 131072 → t.K = s.K ∧ t.klen = s.klen) ∧
    t.S = s.S ∧ t.i = s.i ∧ t.j = s.j ∧ t.phase = s.phase ∧ t.cnt = s.cnt ∧ t.ecode = s.ecode ∧ t.host = s.host ∧
    (s.klen.toNat ≠ 131072 → t.ktrunc = s.ktrunc)

/-- Rule R64: after a reset, KEYB commands carrying the bytes `B` and no other command but STAT leave `KLEN = min(L, 131072)`,
`KTRUNC` set exactly when `L > 131072`, and in `K` the key words of the first `KLEN` bytes. -/
def Obligations.KeyCommandsLoadTheKeyWords : Prop :=
  ∀ (cs : List Instr) (bytes : List Byte),
    (∀ c ∈ cs, c = .stat ∨ ∃ d, c = .keyb d) →
    bytes = cs.filterMap Instr.keyByte? →
    ∃ t, runSteps cs.length (State.reset.withHost (commandMoves cs)) = .next t ∧
      t.klen.toNat = min bytes.length 131072 ∧ (t.ktrunc = true ↔ 131072 < bytes.length) ∧
      t.K.HoldsWords (keywords (bytes.take t.klen.toNat)) ∧
      (keywords (bytes.take t.klen.toNat)).length = keyWordCount t.klen

/-- Rule R65: an odd key's last word is its last byte with a zero low byte, so that the key and the same key with 0x00 appended have the
same key words and the same keystream. -/
def Obligations.OddKeyEqualsKeyWithZeroAppended : Prop :=
  (∀ (key : List Byte) (last : Byte), key.length % 2 = 0 →
    keywords (key ++ [last]) = keywords key ++ [pair last 0x00]) ∧
  (∀ key : List Byte, key.length % 2 = 1 →
    keywords (key ++ [0x00]) = keywords key ∧ ∀ m, keystreamByte (key ++ [0x00]) m = keystreamByte key m) ∧
  keywords [0xAB] = [0xAB00] ∧ keywords [0xAB, 0x00] = [0xAB00]

/-! ### Key schedule (spec/41_key_schedule.md) -/

/-- Rules R69, R23: SCHED taken in KEYLOAD with a key goes to FILL and writes nothing else. -/
def Obligations.SchedStartsTheFill : Prop :=
  ∀ s : State, s.phase = .keyload → s.klen ≠ 0 → exec .sched s = .next { s with phase := .fill, cnt := 0 }

/-- Rule R70: one uFILL writes `S[x] <- x` and counts, or at `CNT = 65535` clears `j` and goes to KSA; the 65536 steps of the phase leave
the identity, `j = 0`, `PHASE = KSA`, `CNT = 0`. -/
def Obligations.FillWritesTheIdentity : Prop :=
  (∀ s : State, s.phase = .fill → s.resetPending = false →
    let x := loopIndex s.cnt
    let m := s.S.write x.toNat x
    step s = .next (if s.cnt = 65535 then { s with S := m, j := 0, phase := .ksa, cnt := 0 }
                    else { s with S := m, cnt := s.cnt + 1 })) ∧
  (∀ s : State, s.phase = .fill → s.cnt = 0 → s.resetPending = false →
    ∃ t, runSteps 65536 s = .next t ∧ t.S.Holds id ∧ t.j = 0 ∧ t.phase = .ksa ∧ t.cnt = 0 ∧
      t.K = s.K ∧ t.klen = s.klen ∧ t.ktrunc = s.ktrunc ∧ t.ecode = s.ecode ∧ t.i = s.i ∧ t.host = s.host ∧
      t.responses = s.responses)

/-- Rule R71: one uKSA. With `x = CNT[15:0]`, `a = S[x]`, `k = K[x mod N]`, the new `j` is `add16(j, a, k)` and `S[x]`, `S[j]` are
exchanged; the last step clears `i` and `j` and goes to DROP. -/
def Obligations.KsaStepAddsAndSwaps : Prop :=
  ∀ (s : State) (a k b : Word), s.phase = .ksa → s.resetPending = false →
    1 ≤ keyWordCount s.klen → keyWordCount s.klen ≤ 65536 →
    s.S.read? (loopIndex s.cnt).toNat = some a →
    s.K.read? ((loopIndex s.cnt).toNat % keyWordCount s.klen) = some k →
    s.S.read? (add16Three s.j a k).toNat = some b →
    let j := add16Three s.j a k
    let m := (s.S.write (loopIndex s.cnt).toNat b).write j.toNat a
    step s = .next (if s.cnt = 65535 then { s with S := m, i := 0, j := 0, phase := .drop, cnt := 0 }
                    else { s with S := m, j := j, cnt := s.cnt + 1 })

/-- Rule R73: phases FILL and KSA, run from `PHASE = FILL, CNT = 0` with a key, leave `S = ksa(K[0..N-1])`, `i = 0`, `j = 0`,
`PHASE = DROP`, `CNT = 0` after exactly 131072 micro-steps, and nothing else changed. -/
def Obligations.FillAndKsaComputeTheKeySchedule : Prop :=
  ∀ (s : State) (words : List Word), s.phase = .fill → s.cnt = 0 → s.resetPending = false →
    1 ≤ s.klen.toNat → s.klen.toNat ≤ 131072 → words.length = keyWordCount s.klen → s.K.HoldsWords words →
    (∃ t, runSteps 131072 s = .next t ∧ t.S.Holds (ksa words) ∧ t.i = 0 ∧ t.j = 0 ∧ t.phase = .drop ∧ t.cnt = 0 ∧
      t.K = s.K ∧ t.klen = s.klen ∧ t.ktrunc = s.ktrunc ∧ t.ecode = s.ecode ∧ t.host = s.host ∧
      t.responses = s.responses) ∧
    ∀ n < 131072, ∃ t, runSteps n s = .next t ∧ (t.phase = .fill ∨ t.phase = .ksa)

/-- Rules R69, R73, R76, R111: SCHED from KEYLOAD with a key, all 917504 micro-steps: the core is in READY with `CNT = 0`, `i = 0`, `S` and `j`
as 786432 generator steps from `ksa(K)` leave them, `K`, `KLEN`, `KTRUNC` and `ECODE` as before, and one response with `DOUT` = 0x00. -/
def Obligations.SchedRunsTheCoreToReady : Prop :=
  ∀ (s : State) (words : List Word) (rest : List HostMove), s.phase = .keyload →
    s.host = .command (encode .sched) :: rest → (s.withHost rest).resetPending = false →
    1 ≤ s.klen.toNat → s.klen.toNat ≤ 131072 → words.length = keyWordCount s.klen → s.K.HoldsWords words →
    ∃ t, runSteps (1 + Config.scheduleSteps) s = .next t ∧ t.phase = .ready ∧ t.cnt = 0 ∧ t.i = 0 ∧
      t.j = ((Generator.start (ksa words)).after 786432).j ∧
      t.S.Holds ((Generator.start (ksa words)).after 786432).table ∧
      t.K = s.K ∧ t.klen = s.klen ∧ t.ktrunc = s.ktrunc ∧ t.ecode = s.ecode ∧ t.host = rest ∧
      t.responses = s.responses ++ [responseWord t.status 0x00]

/-! ### Keystream generation (spec/42_keystream.md) -/

/-- Rule R74: one uPRGA advances the generator one step and emits its word, and touches only `S`, `i` and `j`. -/
def Obligations.PrgaStepFollowsTheGenerator : Prop :=
  ∀ (s : State) (g : Generator), s.S.Holds g.table → s.i = g.i → s.j = g.j →
    ∃ m : Memory, uPRGA s = .ok ({ s with S := m, i := g.next.i, j := g.next.j }, g.next.emitted) ∧ m.Holds g.next.table

/-- Rule R76: phase DROP makes exactly 786432 generator steps whose words reach no response; nothing resets `i`, `j` or `S` when it ends,
and `i` is 0 again. -/
def Obligations.DropDiscards786432Steps : Prop :=
  ∀ (s : State) (f : Table), s.phase = .drop → s.cnt = 0 → s.i = 0 → s.j = 0 → s.S.Holds f → s.resetPending = false →
    (∃ t, runSteps 786432 s = .next t ∧ t.phase = .ready ∧ t.cnt = 0 ∧ t.i = 0 ∧
      t.i = ((Generator.start f).after 786432).i ∧ t.j = ((Generator.start f).after 786432).j ∧
      t.S.Holds ((Generator.start f).after 786432).table ∧
      t.K = s.K ∧ t.klen = s.klen ∧ t.ktrunc = s.ktrunc ∧ t.ecode = s.ecode ∧ t.host = s.host ∧
      t.responses = s.responses ++ [responseWord t.status 0x00]) ∧
    ∀ n < 786432, ∃ t, runSteps n s = .next t ∧ t.phase = .drop ∧ t.responses = s.responses

/-- Rule R111: from any state of FILL, KSA or DROP that meets the invariant, the core reaches READY in at most 917504 micro-steps by itself,
and answers once. -/
def Obligations.BusyCoreReachesReady : Prop :=
  ∀ s : State, s.Inv → s.busy = true → s.resetPending = false →
    ∃ n ≤ 917504, ∃ t, runSteps n s = .next t ∧ t.phase = .ready ∧ t.host = s.host ∧
      t.responses = s.responses ++ [responseWord t.status 0x00]

/-! ### Cipher stream (spec/43_cipher_stream.md) -/

/-- Rule R81: CRYPT in READY. One generator step on `S`, `i`, `j`; the response carries `DATA XOR extract(W)`; nothing else changes. -/
def Obligations.CryptMakesOneStepAndAnswersTheByte : Prop :=
  ∀ (s : State) (d : Byte) (f : Table), s.phase = .ready → s.S.Holds f →
    let i := add16 s.i 1
    let j := add16 (f i) s.j
    let f' := f.swap i j
    exec (.crypt d) s =
      .next (State.respond { s with S := (s.S.write i.toNat (f j)).write j.toNat (f i), i := i, j := j }
        (d ^^^ extract (f' (add16 (f' i) (f' j)))))

/-- The frame of CRYPT (rule R81): every word of `S` but `S[i]` and `S[j]` with the new `i` and `j`, all of `K`, and every register but `i` and
`j` are as before. -/
def Obligations.CryptFrame : Prop :=
  ∀ (s t : State) (d : Byte), s.phase = .ready → exec (.crypt d) s = .next t →
    ∃ a : Word, s.S.read? (add16 s.i 1).toNat = some a ∧
      t.i = add16 s.i 1 ∧ t.j = add16 a s.j ∧
      (∀ c : Nat, c ≠ (add16 s.i 1).toNat → c ≠ (add16 a s.j).toNat → t.S.read? c = s.S.read? c) ∧
      t.K = s.K ∧ t.klen = s.klen ∧ t.ktrunc = s.ktrunc ∧ t.phase = s.phase ∧ t.cnt = s.cnt ∧ t.ecode = s.ecode ∧
      t.host = s.host

/-- Rules R2, R81: the state CRYPT leaves does not depend on its data byte; only the byte of the response does. -/
def Obligations.CryptStateIgnoresTheData : Prop :=
  ∀ (s t : State) (d d' : Byte), exec (.crypt d) s = .next t →
    ∃ t', exec (.crypt d') s = .next t' ∧ t' = { t with responses := t'.responses } ∧
      (s.phase = .ready → ∃ ks : Byte,
        t.responses = s.responses ++ [responseWord t.status (d ^^^ ks)] ∧
        t'.responses = s.responses ++ [responseWord t.status (d' ^^^ ks)])

/-- Rules R77, R79, R82: a whole session with a key of at least one byte, run from any phase that takes commands, ends in READY, and its output
bytes are the data bytes XOR `ks(1), ks(2), ...`, where `ks(m)` is extracted from generator step `786432 + m`; every one comes in a
response whose `PHASE` is READY. -/
def Obligations.SessionOutputIsDataXorKeystream : Prop :=
  ∀ (s : State) (key data : List Byte), s.phase.accepting = true → key ≠ [] →
    ∃ t, runSession key data s = .next t ∧ t.phase = .ready ∧ t.host = [] ∧
      t.responses.length = s.responses.length + key.length + data.length + 2 ∧
      t.lastOutputs data.length = cipher key data ∧
      ∀ r ∈ t.responses.drop (t.responses.length - data.length), carriesOutput r = true

/-- Rule R84: encrypting and then decrypting, each a whole session with the same key of at least one byte and from any two states that take
commands, gives the data back. -/
def Obligations.SessionTwiceGivesTheDataBack : Prop :=
  ∀ (s s' : State) (key data : List Byte), s.phase.accepting = true → s'.phase.accepting = true → key ≠ [] →
    ∃ t t', runSession key data s = .next t ∧ runSession key (t.lastOutputs data.length) s' = .next t' ∧
      t'.lastOutputs data.length = data
end

