-- ==== Sys2Proof/Laws/Arithmetic.lean ====
section
/-! SUPPORT. The core's arithmetic in terms of bit vectors and natural numbers, one lemma for each function. -/

namespace Sys2Proof.Machine

/-- `add16` is the wrapping sum of bit vectors. -/
theorem add16_eq_add (a b : Word) : add16 a b = a + b := by
  apply BitVec.eq_of_toNat_eq
  simp [add16, Config.stateSize]

/-- The three-operand sum is the wrapping sum of bit vectors. -/
theorem add16Three_eq_add (a b c : Word) : add16Three a b c = a + b + c := by
  apply BitVec.eq_of_toNat_eq
  simp [add16Three, Config.stateSize]

/-- The loop variable is `CNT` modulo 65536. -/
theorem loopIndex_toNat (cnt : BitVec 20) : (loopIndex cnt).toNat = cnt.toNat % 65536 := by
  simp [loopIndex]

/-- The loop variable of a step within a phase of 65536 steps is `CNT` itself. -/
theorem loopIndex_toNat_of_lt {cnt : BitVec 20} (h : cnt.toNat < 65536) : (loopIndex cnt).toNat = cnt.toNat := by
  rw [loopIndex_toNat, Nat.mod_eq_of_lt h]

/-- `CNT` counts without wrapping as long as it stays below the greatest bound of a phase. -/
theorem cnt_succ_toNat {cnt : BitVec 20} (h : cnt.toNat < 786432) : (cnt + 1).toNat = cnt.toNat + 1 := by
  rw [BitVec.toNat_add]; exact Nat.mod_eq_of_lt (by simp; omega)

/-- `KLEN` counts without wrapping below 131072. -/
theorem klen_succ_toNat {klen : BitVec 18} (h : klen.toNat < 131072) : (klen + 1).toNat = klen.toNat + 1 := by
  rw [BitVec.toNat_add]; exact Nat.mod_eq_of_lt (by simp; omega)

/-- The byte in even position is the first of a pair. -/
theorem firstOfPair_iff (klen : BitVec 18) : firstOfPair klen = true ↔ klen.toNat % 2 = 0 := by
  simp only [firstOfPair, BitVec.getLsbD, Nat.testBit_zero, Bool.not_eq_true', decide_eq_false_iff_not]; omega

/-- A remainder by `N >= 1` has a value. -/
theorem cyclicIndex_pos {n : Nat} (h : 1 ≤ n) (x : Word) : cyclicIndex x n = some (x.toNat % n) := by
  have : n ≠ 0 := by omega
  simp [cyclicIndex, this]

/-- A bit of a concatenation of two bytes. -/
theorem append_bit (h l : Byte) (n : Nat) :
    BitVec.getLsbD (w := 16) (h ++ l) n = if n < 8 then l.getLsbD n else h.getLsbD (n - 8) :=
  BitVec.getLsbD_append

/-- The high byte of a concatenation. -/
theorem append_high (h l : Byte) : BitVec.extractLsb' (n := 16) 8 8 (h ++ l) = h := by
  apply BitVec.eq_of_getLsbD_eq; intro n hn; simp [append_bit, hn]

/-- The low byte of a concatenation. -/
theorem append_low (h l : Byte) : BitVec.extractLsb' (n := 16) 0 8 (h ++ l) = l := by
  apply BitVec.eq_of_getLsbD_eq; intro n hn; simp [append_bit, hn]

/-- The high byte of a pair. -/
@[simp] theorem pair_high (h l : Byte) : (pair h l).extractLsb' 8 8 = h := append_high h l

/-- The low byte of a pair. -/
@[simp] theorem pair_low (h l : Byte) : (pair h l).extractLsb' 0 8 = l := append_low h l

/-- A low-byte write over a padded word completes the pair. -/
@[simp] theorem withLowByte_pair (h l b : Byte) : withLowByte (pair h l) b = pair h b := by
  simp [withLowByte]

/-- The `DOUT` field of a response. -/
@[simp] theorem responseDout_responseWord (st d : Byte) : responseDout (responseWord st d) = d := pair_low st d

/-- The `STATUS` field of a response. -/
@[simp] theorem responseStatus_responseWord (st d : Byte) : responseStatus (responseWord st d) = st := pair_high st d

/-- The `PHASE` field of a response is the low three bits of its `STATUS`. -/
theorem responsePhase_responseWord (st d : Byte) : responsePhase (responseWord st d) = st.extractLsb' 0 3 := by
  apply BitVec.eq_of_getLsbD_eq; intro n hn
  simp [responsePhase, responseWord, append_bit, hn]

/-- A bit of `STATUS` (rule R28). -/
theorem State.status_bit (s : State) (n : Nat) :
    s.status.getLsbD n = if n < 3 then s.phase.code.getLsbD n
      else if n - 3 < 1 then (BitVec.ofBool s.ktrunc).getLsbD (n - 3) else s.ecode.code.getLsbD (n - 4) := by
  have h1 : s.status.getLsbD n = if n < 3 then s.phase.code.getLsbD n
      else BitVec.getLsbD (w := 5) (s.ecode.code ++ BitVec.ofBool s.ktrunc) (n - 3) := BitVec.getLsbD_append
  have h2 : BitVec.getLsbD (w := 5) (s.ecode.code ++ BitVec.ofBool s.ktrunc) (n - 3) =
      if n - 3 < 1 then (BitVec.ofBool s.ktrunc).getLsbD (n - 3) else s.ecode.code.getLsbD (n - 3 - 1) :=
    BitVec.getLsbD_append
  rw [h1, h2]; rfl

/-- The low three bits of `STATUS` are the code of the phase. -/
theorem State.status_phase (s : State) : s.status.extractLsb' 0 3 = s.phase.code := by
  apply BitVec.eq_of_getLsbD_eq; intro n hn
  simp [State.status_bit, hn]

end Sys2Proof.Machine
end

