-- ==== Sys2Proof/Laws/Memory.lean ====
section
/-! SUPPORT. The laws of memory: reads after writes, and the canonical form under every operation. -/

namespace Sys2Proof.Machine

/-- A read after a write to any word. -/
theorem Memory.read?_write (m : Memory) (a b : Nat) (w : Word) :
    (m.write a w).read? b = if b = a then some w else m.read? b := by
  induction m with
  | nil => simp [Memory.write, Memory.read?]
  | cons c m ih =>
    obtain ⟨x, v⟩ := c
    simp only [Memory.write]
    by_cases h1 : a < x
    · simp only [h1, if_true, Memory.read?]
    · by_cases h2 : a = x
      · subst h2; simp only [lt_irrefl, if_true, if_false, Memory.read?]; split <;> simp_all
      · simp only [h1, h2, if_false, Memory.read?, ih]
        split <;> simp_all
        intro hb; exact absurd hb.symm h2

/-- A read after a write to the same word gives the value written. -/
@[simp] theorem Memory.read?_write_self (m : Memory) (a : Nat) (w : Word) : (m.write a w).read? a = some w := by
  simp [Memory.read?_write]

/-- A write leaves every other word alone. -/
theorem Memory.read?_write_ne (m : Memory) {a b : Nat} (w : Word) (h : b ≠ a) :
    (m.write a w).read? b = m.read? b := by
  simp [Memory.read?_write, h]

/-- The empty memory has no word written. -/
@[simp] theorem Memory.read?_nil (a : Nat) : Memory.read? [] a = none := rfl

/-- Every index of a written memory was written before or is the one written now. -/
theorem Memory.mem_write {m : Memory} {a : Nat} {w : Word} {c : Cell} (h : c ∈ m.write a w) : c = (a, w) ∨ c ∈ m := by
  induction m with
  | nil => simpa [Memory.write] using h
  | cons d m ih =>
    obtain ⟨x, v⟩ := d
    simp only [Memory.write] at h
    split at h
    · simpa using h
    · split at h
      · simp only [List.mem_cons] at h ⊢; tauto
      · simp only [List.mem_cons] at h ⊢
        rcases h with h | h
        · exact .inr (.inl h)
        · rcases ih h with h | h <;> tauto

/-- The indices after a write are still strictly rising. -/
theorem Memory.rising_write {m : Memory} (a : Nat) (w : Word) (h : (m.map Prod.fst).Pairwise (· < ·)) :
    ((m.write a w).map Prod.fst).Pairwise (· < ·) := by
  induction m with
  | nil => simp [Memory.write]
  | cons c m ih =>
    obtain ⟨x, v⟩ := c
    have hx : ∀ y ∈ m.map Prod.fst, x < y := (List.pairwise_cons.mp h).1
    have hm : (m.map Prod.fst).Pairwise (· < ·) := (List.pairwise_cons.mp h).2
    simp only [Memory.write]
    split
    · rename_i hlt
      refine List.pairwise_cons.mpr ⟨fun y hy => ?_, h⟩
      rcases List.mem_cons.mp hy with rfl | hy
      · exact hlt
      · exact lt_trans hlt (hx y hy)
    · split
      · rename_i heq; subst heq; exact List.pairwise_cons.mpr ⟨hx, hm⟩
      · refine List.pairwise_cons.mpr ⟨fun y hy => ?_, ih hm⟩
        obtain ⟨c, hc, rfl⟩ := List.mem_map.mp hy
        rcases Memory.mem_write hc with rfl | hc
        · simp only; omega
        · exact hx _ (List.mem_map_of_mem hc)

/-- A write inside the memory keeps the canonical form. -/
theorem Memory.wf_write {m : Memory} (h : m.wf) {a : Nat} (ha : a < Config.stateSize) (w : Word) : (m.write a w).wf := by
  refine ⟨Memory.rising_write a w h.1, fun c hc => ?_⟩
  rcases Memory.mem_write hc with rfl | hc
  · exact ha
  · exact h.2 c hc

/-- A canonical memory reads nothing below its first index. -/
theorem Memory.read?_below {m : Memory} {a : Nat} (h : ∀ y ∈ m.map Prod.fst, a < y) : m.read? a = none := by
  induction m with
  | nil => rfl
  | cons c m ih =>
    obtain ⟨x, v⟩ := c
    have hx : a < x := h x (by simp)
    have hne : a ≠ x := by omega
    simp only [Memory.read?, if_neg hne]
    exact ih fun y hy => h y (by simp only [List.map_cons, List.mem_cons]; exact .inr hy)

/-- Writing back what a word of a canonical memory holds changes nothing. -/
theorem Memory.write_read? {m : Memory} (h : m.wf) {a : Nat} {w : Word} (hr : m.read? a = some w) : m.write a w = m := by
  obtain ⟨hp, -⟩ := h
  induction m with
  | nil => simp at hr
  | cons c m ih =>
    obtain ⟨x, v⟩ := c
    have hx : ∀ y ∈ m.map Prod.fst, x < y := (List.pairwise_cons.mp hp).1
    simp only [Memory.read?] at hr
    by_cases hax : a = x
    · subst hax; simp only [if_true, Option.some.injEq] at hr; subst hr; simp [Memory.write]
    · rw [if_neg hax] at hr
      have hlt : ¬ a < x := by
        intro hlt
        rw [Memory.read?_below fun y hy => lt_trans hlt (hx y hy)] at hr
        exact absurd hr (by simp)
      simp only [Memory.write, if_neg hlt, if_neg hax, ih hr (List.pairwise_cons.mp hp).2]

/-- Every 16-bit value is an index of a memory (rule R37). -/
theorem word_index_lt (a : Word) : a.toNat < Config.stateSize := a.isLt

/-- A read answers the value of a written word of the memory, and stops otherwise. -/
theorem Memory.fetch_ok_iff {sp : Space} {m : Memory} {a : Nat} {w : Word} :
    m.fetch sp a = .ok w ↔ a < Config.stateSize ∧ m.read? a = some w := by
  simp only [Memory.fetch]
  split
  · cases h : m.read? a <;> simp_all
  · simp_all

/-- A read of a written word. -/
theorem Memory.fetch_of_read? {sp : Space} {m : Memory} {a : Nat} {w : Word} (ha : a < Config.stateSize)
    (h : m.read? a = some w) : m.fetch sp a = .ok w := Memory.fetch_ok_iff.mpr ⟨ha, h⟩

/-- A write inside the memory. -/
theorem Memory.put_of_lt {sp : Space} {m : Memory} {a : Nat} (w : Word) (ha : a < Config.stateSize) :
    m.put sp a w = .ok (m.write a w) := by simp [Memory.put, ha]

/-- All a write can do. -/
theorem Memory.put_ok_iff {sp : Space} {m m' : Memory} {a : Nat} {w : Word} :
    m.put sp a w = .ok m' ↔ a < Config.stateSize ∧ m' = m.write a w := by
  simp only [Memory.put]
  split <;> simp_all [eq_comm]

/-- All a low-byte write can do. -/
theorem Memory.putLow_ok_iff {sp : Space} {m m' : Memory} {a : Nat} {b : Byte} :
    m.putLow sp a b = .ok m' ↔
      a < Config.stateSize ∧ ∃ old, m.read? a = some old ∧ m' = m.write a (withLowByte old b) := by
  simp only [Memory.putLow]
  cases h : m.fetch sp a with
  | ok old =>
    obtain ⟨ha, hr⟩ := Memory.fetch_ok_iff.mp h
    simp [hr, Memory.put_ok_iff, ha]
  | error f =>
    simp only [reduceCtorEq, false_iff, not_and, not_exists]
    intro ha old hr
    rw [Memory.fetch_of_read? ha hr] at h
    exact absurd h (by simp)

/-- All a swap can do: it reads both words and writes each to the other's place (rule R43). -/
theorem Memory.swap_ok_iff {m m' : Memory} {a b : Word} :
    m.swap a b = .ok m' ↔
      ∃ v w, m.read? a.toNat = some v ∧ m.read? b.toNat = some w ∧ m' = (m.write a.toNat w).write b.toNat v := by
  have ha := word_index_lt a
  have hb := word_index_lt b
  simp only [Memory.swap]
  cases h1 : m.read? a.toNat with
  | none =>
    have : m.fetch .S a.toNat = .error (.unwrittenWord .S a.toNat) := by simp [Memory.fetch, ha, h1]
    simp [this]
  | some v =>
    rw [Memory.fetch_of_read? ha h1]
    cases h2 : m.read? b.toNat with
    | none =>
      have : m.fetch .S b.toNat = .error (.unwrittenWord .S b.toNat) := by simp [Memory.fetch, hb, h2]
      simp [this]
    | some w => rw [Memory.fetch_of_read? hb h2]; simp [eq_comm]

/-- A swap keeps the canonical form. -/
theorem Memory.wf_swap {m m' : Memory} {a b : Word} (h : m.wf) (hs : m.swap a b = .ok m') : m'.wf := by
  obtain ⟨v, w, -, -, rfl⟩ := Memory.swap_ok_iff.mp hs
  exact Memory.wf_write (Memory.wf_write h (word_index_lt a) w) (word_index_lt b) v

/-- A write of `K` by KEYB keeps the canonical form. -/
theorem Memory.wf_put {sp : Space} {m m' : Memory} {a : Nat} {w : Word} (h : m.wf) (hp : m.put sp a w = .ok m') :
    m'.wf := by
  obtain ⟨ha, rfl⟩ := Memory.put_ok_iff.mp hp
  exact Memory.wf_write h ha w

/-- A low-byte write keeps the canonical form. -/
theorem Memory.wf_putLow {sp : Space} {m m' : Memory} {a : Nat} {b : Byte} (h : m.wf) (hp : m.putLow sp a b = .ok m') :
    m'.wf := by
  obtain ⟨ha, old, -, rfl⟩ := Memory.putLow_ok_iff.mp hp
  exact Memory.wf_write h ha _

/-- A swap of a memory that holds a table holds the swapped table (rule R43). -/
theorem Memory.Holds.swap {m : Memory} {t : Table} (h : m.Holds t) (a b : Word) :
    m.swap a b = .ok ((m.write a.toNat (t b)).write b.toNat (t a)) ∧
      Memory.Holds ((m.write a.toNat (t b)).write b.toNat (t a)) (t.swap a b) := by
  refine ⟨Memory.swap_ok_iff.mpr ⟨t a, t b, h a, h b, rfl⟩, fun x => ?_⟩
  simp only [Memory.read?_write, BitVec.toNat_inj, Table.swap]
  by_cases hxb : x = b
  · subst hxb
    by_cases hxa : x = a
    · subst hxa; simp
    · simp [hxa]
  · by_cases hxa : x = a
    · subst hxa; simp [hxb]
    · simp [hxa, hxb, h x]

/-- A memory that holds a table reads it through `fetch`. -/
theorem Memory.Holds.fetch {m : Memory} {t : Table} (h : m.Holds t) (a : Word) : m.fetch .S a.toNat = .ok (t a) :=
  Memory.fetch_of_read? (word_index_lt a) (h a)

/-- The identity permutation as a memory, for witnesses: words `0 .. n - 1`. -/
def identityMemory (n : Nat) : Memory := (List.range n).map fun a => (a, BitVec.ofNat 16 a)

/-- Reading a list of cells made by a function of the index. -/
theorem Memory.read?_map (f : Nat → Word) (l : List Nat) (a : Nat) :
    Memory.read? (l.map fun x => (x, f x)) a = if a ∈ l then some (f a) else none := by
  induction l with
  | nil => simp
  | cons x l ih =>
    simp only [List.map_cons, Memory.read?, ih, List.mem_cons]
    by_cases h : a = x
    · subst h; simp
    · simp [h]

/-- The identity memory holds the identity table. -/
theorem identityMemory_holds : (identityMemory Config.stateSize).Holds id := by
  intro a
  have ha := word_index_lt a
  simp [identityMemory, Memory.read?_map, ha]

/-- The identity memory is canonical. -/
theorem identityMemory_wf {n : Nat} (h : n ≤ Config.stateSize) : (identityMemory n).wf := by
  constructor
  · have : (identityMemory n).map Prod.fst = List.range n := by simp [identityMemory, Function.comp_def]
    rw [this]; exact List.pairwise_lt_range
  · intro c hc
    obtain ⟨a, ha, rfl⟩ := List.mem_map.mp hc
    have := List.mem_range.mp ha
    simp only; omega

/-- A memory holds a bijective table exactly when it is a permutation in the sense of rule R32. -/
theorem Memory.Holds.isPermutation {m : Memory} {t : Table} (h : m.Holds t) (ht : Function.Bijective t) :
    m.IsPermutation := by
  refine ⟨fun a => ⟨t a, h a⟩, fun v => ?_⟩
  obtain ⟨a, ha⟩ := ht.2 v
  refine ⟨a, by simp [h a, ha], fun b hb => ?_⟩
  simp only [h b, Option.some.injEq] at hb
  exact ht.1 (hb.trans ha.symm)

/-- A permutation memory holds a bijective table. -/
theorem Memory.IsPermutation.holds {m : Memory} (h : m.IsPermutation) :
    ∃ t : Table, m.Holds t ∧ Function.Bijective t := by
  choose t ht using h.1
  refine ⟨t, ht, fun a b hab => ?_, fun v => ?_⟩
  · obtain ⟨c, -, hc⟩ := h.2 (t a)
    rw [hc a (ht a), hc b (by simp [ht b, hab])]
  · obtain ⟨a, ha, -⟩ := h.2 v
    refine ⟨a, ?_⟩
    have := ht a
    rw [this] at ha
    simpa using ha

/-- Exchanging two entries of a bijective table leaves it bijective (rule R32). -/
theorem Table.swap_bijective {t : Table} (h : Function.Bijective t) (a b : Word) : Function.Bijective (t.swap a b) := by
  have : t.swap a b = t ∘ Equiv.swap a b := by
    funext x
    simp only [Table.swap, Function.comp, Equiv.swap_apply_def]
    split
    · rfl
    · split <;> rfl
  rw [this]
  exact h.comp (Equiv.swap a b).bijective

end Sys2Proof.Machine
end

