-- ==== Sys2Proof/Laws/State.lean ====
section
/-! SUPPORT. What each update of State leaves in each field, so that no proof unfolds an update. -/

namespace Sys2Proof.Machine

section goto
variable (s : State) (p : Phase)
@[simp] theorem State.goto_S : (s.goto p).S = s.S := rfl
@[simp] theorem State.goto_K : (s.goto p).K = s.K := rfl
@[simp] theorem State.goto_i : (s.goto p).i = s.i := rfl
@[simp] theorem State.goto_j : (s.goto p).j = s.j := rfl
@[simp] theorem State.goto_klen : (s.goto p).klen = s.klen := rfl
@[simp] theorem State.goto_ktrunc : (s.goto p).ktrunc = s.ktrunc := rfl
@[simp] theorem State.goto_phase : (s.goto p).phase = p := rfl
@[simp] theorem State.goto_cnt : (s.goto p).cnt = 0 := rfl
@[simp] theorem State.goto_ecode : (s.goto p).ecode = s.ecode := rfl
@[simp] theorem State.goto_host : (s.goto p).host = s.host := rfl
@[simp] theorem State.goto_responses : (s.goto p).responses = s.responses := rfl
end goto

section count
variable (s : State)
@[simp] theorem State.count_S : s.count.S = s.S := rfl
@[simp] theorem State.count_K : s.count.K = s.K := rfl
@[simp] theorem State.count_i : s.count.i = s.i := rfl
@[simp] theorem State.count_j : s.count.j = s.j := rfl
@[simp] theorem State.count_klen : s.count.klen = s.klen := rfl
@[simp] theorem State.count_ktrunc : s.count.ktrunc = s.ktrunc := rfl
@[simp] theorem State.count_phase : s.count.phase = s.phase := rfl
@[simp] theorem State.count_cnt : s.count.cnt = s.cnt + 1 := rfl
@[simp] theorem State.count_ecode : s.count.ecode = s.ecode := rfl
@[simp] theorem State.count_host : s.count.host = s.host := rfl
@[simp] theorem State.count_responses : s.count.responses = s.responses := rfl
end count

section respond
variable (s : State) (d : Byte)
@[simp] theorem State.respond_S : (s.respond d).S = s.S := rfl
@[simp] theorem State.respond_K : (s.respond d).K = s.K := rfl
@[simp] theorem State.respond_i : (s.respond d).i = s.i := rfl
@[simp] theorem State.respond_j : (s.respond d).j = s.j := rfl
@[simp] theorem State.respond_klen : (s.respond d).klen = s.klen := rfl
@[simp] theorem State.respond_ktrunc : (s.respond d).ktrunc = s.ktrunc := rfl
@[simp] theorem State.respond_phase : (s.respond d).phase = s.phase := rfl
@[simp] theorem State.respond_cnt : (s.respond d).cnt = s.cnt := rfl
@[simp] theorem State.respond_ecode : (s.respond d).ecode = s.ecode := rfl
@[simp] theorem State.respond_host : (s.respond d).host = s.host := rfl
@[simp] theorem State.respond_responses :
    (s.respond d).responses = s.responses ++ [responseWord s.status d] := rfl
@[simp] theorem State.respond_status : (s.respond d).status = s.status := rfl
end respond

section raise
variable (s : State) (c : Cause)
@[simp] theorem State.raise_S : (s.raise c).S = s.S := rfl
@[simp] theorem State.raise_K : (s.raise c).K = s.K := rfl
@[simp] theorem State.raise_i : (s.raise c).i = s.i := rfl
@[simp] theorem State.raise_j : (s.raise c).j = s.j := rfl
@[simp] theorem State.raise_klen : (s.raise c).klen = s.klen := rfl
@[simp] theorem State.raise_ktrunc : (s.raise c).ktrunc = s.ktrunc := rfl
@[simp] theorem State.raise_phase : (s.raise c).phase = .error := rfl
@[simp] theorem State.raise_cnt : (s.raise c).cnt = s.cnt := rfl
@[simp] theorem State.raise_ecode : (s.raise c).ecode = c := rfl
@[simp] theorem State.raise_host : (s.raise c).host = s.host := rfl
@[simp] theorem State.raise_responses : (s.raise c).responses =
    s.responses ++ [responseWord (c.code ++ BitVec.ofBool s.ktrunc ++ Phase.error.code) 0] := rfl
end raise

section resetCore
variable (s : State)
@[simp] theorem State.resetCore_S : s.resetCore.S = [] := rfl
@[simp] theorem State.resetCore_K : s.resetCore.K = [] := rfl
@[simp] theorem State.resetCore_i : s.resetCore.i = 0 := rfl
@[simp] theorem State.resetCore_j : s.resetCore.j = 0 := rfl
@[simp] theorem State.resetCore_klen : s.resetCore.klen = 0 := rfl
@[simp] theorem State.resetCore_ktrunc : s.resetCore.ktrunc = false := rfl
@[simp] theorem State.resetCore_phase : s.resetCore.phase = .keyload := rfl
@[simp] theorem State.resetCore_cnt : s.resetCore.cnt = 0 := rfl
@[simp] theorem State.resetCore_ecode : s.resetCore.ecode = .none := rfl
@[simp] theorem State.resetCore_host : s.resetCore.host = s.host := rfl
@[simp] theorem State.resetCore_responses : s.resetCore.responses = s.responses := rfl
end resetCore

section withHost
variable (s : State) (moves : List HostMove)
@[simp] theorem State.withHost_S : (s.withHost moves).S = s.S := rfl
@[simp] theorem State.withHost_K : (s.withHost moves).K = s.K := rfl
@[simp] theorem State.withHost_i : (s.withHost moves).i = s.i := rfl
@[simp] theorem State.withHost_j : (s.withHost moves).j = s.j := rfl
@[simp] theorem State.withHost_klen : (s.withHost moves).klen = s.klen := rfl
@[simp] theorem State.withHost_ktrunc : (s.withHost moves).ktrunc = s.ktrunc := rfl
@[simp] theorem State.withHost_phase : (s.withHost moves).phase = s.phase := rfl
@[simp] theorem State.withHost_cnt : (s.withHost moves).cnt = s.cnt := rfl
@[simp] theorem State.withHost_ecode : (s.withHost moves).ecode = s.ecode := rfl
@[simp] theorem State.withHost_host : (s.withHost moves).host = moves := rfl
@[simp] theorem State.withHost_responses : (s.withHost moves).responses = s.responses := rfl
@[simp] theorem State.withHost_self : s.withHost s.host = s := rfl
end withHost

/-- The host's moves do not decide which micro-step is the last of its phase. -/
@[simp] theorem State.withHost_lastOf (s : State) (moves : List HostMove) (n : Nat) :
    (s.withHost moves).lastOf n = s.lastOf n := rfl

/-- The phases that take commands are KEYLOAD, READY and ERROR. -/
theorem Phase.accepting_iff (p : Phase) : p.accepting = true ↔ p = .keyload ∨ p = .ready ∨ p = .error := by
  cases p <;> simp [Phase.accepting]

/-- The other phases are FILL, KSA and DROP. -/
theorem State.busy_iff (s : State) : s.busy = true ↔ s.phase = .fill ∨ s.phase = .ksa ∨ s.phase = .drop := by
  cases h : s.phase <;> simp [State.busy, Phase.accepting, h]

end Sys2Proof.Machine
end

