-- ==== Sys2Proof/Laws/Commands.lean ====
section
/-! SUPPORT. One lemma for each shared operation and micro-operation, saying everything it can do. -/

namespace Sys2Proof.Machine

/-- An outcome that comes from an access is a next state exactly when the access succeeds. -/
@[simp] theorem outcomeOf_next_iff {e : Except Fault State} {t : State} : outcomeOf e = .next t ↔ e = .ok t := by
  cases e <;> simp [outcomeOf]

/-- `Except.map` succeeds exactly when its argument does. -/
@[simp] theorem map_ok_iff {α β : Type} {e : Except Fault α} {f : α → β} {b : β} :
    e.map f = .ok b ↔ ∃ a, e = .ok a ∧ f a = b := by
  cases e <;> simp [Except.map]

/-- In FILL, KSA and DROP a command is refused. -/
theorem whenAccepting_busy {s : State} (h : s.phase.accepting = false) (run : Result) :
    whenAccepting s run = .refused .commandInProgress := by simp [whenAccepting, h]

/-- In the other phases it runs. -/
theorem whenAccepting_accepting {s : State} (h : s.phase.accepting = true) (run : Result) :
    whenAccepting s run = run := by simp [whenAccepting, h]

/-- In ERROR a command other than RST and STAT only gets its answer (rule R98). -/
theorem unlessError_error {s : State} (h : s.phase = .error) (run : Result) :
    unlessError s run = .next (s.respond 0) := by
  simp [unlessError, whenAccepting, h, Phase.accepting]

/-- In KEYLOAD and READY it runs. -/
theorem unlessError_other {s : State} (h : s.phase = .keyload ∨ s.phase = .ready) (run : Result) :
    unlessError s run = run := by
  rcases h with h | h <;> simp [unlessError, whenAccepting, h, Phase.accepting]

/-- In its own phase a command runs. -/
theorem onlyIn_own {s : State} {p : Phase} (hp : p = .keyload ∨ p = .ready) (h : s.phase = p) (run : Result) :
    onlyIn p s run = run := by
  rw [onlyIn, unlessError_other (h ▸ hp), if_pos h]

/-- In the other phase that takes commands it raises SequenceError (rule R92). -/
theorem onlyIn_misplaced {s : State} {p : Phase} (hs : s.phase = .keyload ∨ s.phase = .ready) (h : s.phase ≠ p)
    (run : Result) : onlyIn p s run = .next (s.raise .sequenceError) := by
  rw [onlyIn, unlessError_other hs, if_neg h]

/-- In ERROR it only gets its answer (rule R98). -/
theorem onlyIn_error {s : State} (p : Phase) (h : s.phase = .error) (run : Result) :
    onlyIn p s run = .next (s.respond 0) := unlessError_error h _

/-- All a command that belongs to one phase can do, when it answers a next state. -/
theorem onlyIn_cases {s t : State} {p : Phase} {run : Result} (h : onlyIn p s run = .next t) :
    (s.phase = .error ∧ t = s.respond 0) ∨
    ((s.phase = .keyload ∨ s.phase = .ready) ∧ s.phase ≠ p ∧ t = s.raise .sequenceError) ∨
    ((s.phase = .keyload ∨ s.phase = .ready) ∧ s.phase = p ∧ run = .next t) := by
  by_cases ha : s.phase.accepting = true
  · rcases (Phase.accepting_iff _).mp ha with hp | hp | hp
    · by_cases hpp : s.phase = p
      · rw [onlyIn, unlessError_other (.inl hp), if_pos hpp] at h
        exact .inr (.inr ⟨.inl hp, hpp, h⟩)
      · rw [onlyIn_misplaced (.inl hp) hpp] at h
        exact .inr (.inl ⟨.inl hp, hpp, by simpa using h.symm⟩)
    · by_cases hpp : s.phase = p
      · rw [onlyIn, unlessError_other (.inr hp), if_pos hpp] at h
        exact .inr (.inr ⟨.inr hp, hpp, h⟩)
      · rw [onlyIn_misplaced (.inr hp) hpp] at h
        exact .inr (.inl ⟨.inr hp, hpp, by simpa using h.symm⟩)
    · rw [onlyIn_error p hp] at h
      exact .inl ⟨hp, by simpa using h.symm⟩
  · rw [onlyIn, unlessError, whenAccepting_busy (by simpa using ha)] at h
    exact absurd h (by simp)

/-- All that ingesting a key byte can do (rules R63, R67). -/
theorem ingestKeyByte_ok_iff {s t : State} {d : Byte} :
    ingestKeyByte s d = .ok t ↔
      (s.klen.toNat = Config.keyMaxBytes ∧ t = { s with ktrunc := true }) ∨
      (s.klen.toNat ≠ Config.keyMaxBytes ∧ firstOfPair s.klen = true ∧ keyByteIndex s.klen < Config.stateSize ∧
        t = { s with K := s.K.write (keyByteIndex s.klen) (pair d 0), klen := s.klen + 1 }) ∨
      (s.klen.toNat ≠ Config.keyMaxBytes ∧ firstOfPair s.klen = false ∧ keyByteIndex s.klen < Config.stateSize ∧
        ∃ old, s.K.read? (keyByteIndex s.klen) = some old ∧
          t = { s with K := s.K.write (keyByteIndex s.klen) (withLowByte old d), klen := s.klen + 1 }) := by
  simp only [ingestKeyByte, storeKeyByte]
  by_cases hfull : s.klen.toNat = Config.keyMaxBytes
  · rw [if_pos hfull]
    constructor
    · intro h; exact .inl ⟨hfull, by simpa using h.symm⟩
    · rintro (⟨-, rfl⟩ | ⟨h, -⟩ | ⟨h, -⟩)
      · rfl
      · exact absurd hfull h
      · exact absurd hfull h
  · rw [if_neg hfull]
    cases hf : firstOfPair s.klen
    · simp only [Bool.false_eq_true, if_false]
      constructor
      · intro h
        split at h
        · rename_i k hk
          obtain ⟨ha, old, hr, rfl⟩ := Memory.putLow_ok_iff.mp hk
          exact .inr (.inr ⟨hfull, trivial, ha, old, hr, by simpa using h.symm⟩)
        · exact absurd h (by simp)
      · rintro (⟨h, -⟩ | ⟨-, h, -⟩ | ⟨-, -, ha, old, hr, rfl⟩)
        · exact absurd h hfull
        · exact absurd h (by simp)
        · rw [Memory.putLow_ok_iff.mpr ⟨ha, old, hr, rfl⟩]
    · simp only [if_true]
      constructor
      · intro h
        split at h
        · rename_i k hk
          obtain ⟨ha, rfl⟩ := Memory.put_ok_iff.mp hk
          exact .inr (.inl ⟨hfull, trivial, ha, by simpa using h.symm⟩)
        · exact absurd h (by simp)
      · rintro (⟨h, -⟩ | ⟨-, -, ha, rfl⟩ | ⟨-, h, -⟩)
        · exact absurd h hfull
        · rw [Memory.put_ok_iff.mpr ⟨ha, rfl⟩]
        · exact absurd h (by simp)

/-- All that uKSA can do (rule R71). -/
theorem uKSA_ok_iff {s t : State} :
    uKSA s = .ok t ↔
      ∃ a k b : Word, keyWordCount s.klen ≠ 0 ∧
        s.S.read? (loopIndex s.cnt).toNat = some a ∧
        (loopIndex s.cnt).toNat % keyWordCount s.klen < Config.stateSize ∧
        s.K.read? ((loopIndex s.cnt).toNat % keyWordCount s.klen) = some k ∧
        s.S.read? (add16Three s.j a k).toNat = some b ∧
        t = (if s.lastOf Config.ksaSteps then
              State.goto { s with S := (s.S.write (loopIndex s.cnt).toNat b).write (add16Three s.j a k).toNat a,
                                  i := 0, j := 0 } .drop
            else
              State.count { s with S := (s.S.write (loopIndex s.cnt).toNat b).write (add16Three s.j a k).toNat a,
                                   j := add16Three s.j a k }) := by
  simp only [uKSA, scheduledKeyWord]
  constructor
  · intro h
    split at h
    · rename_i a k ha hk
      split at hk
      · rename_i n hn
        split at h
        · rename_i m hm
          obtain ⟨v, b, hv, hb, rfl⟩ := Memory.swap_ok_iff.mp hm
          have ha' := (Memory.fetch_ok_iff.mp ha).2
          obtain ⟨hlt, hk'⟩ := Memory.fetch_ok_iff.mp hk
          have hva : v = a := by rw [ha'] at hv; simpa using hv.symm
          subst hva
          have hn' : keyWordCount s.klen ≠ 0 ∧ n = (loopIndex s.cnt).toNat % keyWordCount s.klen := by
            by_cases h0 : keyWordCount s.klen = 0
            · simp [cyclicIndex, h0] at hn
            · simp only [cyclicIndex, if_neg h0, Option.some.injEq] at hn
              exact ⟨h0, hn.symm⟩
          obtain ⟨h0, rfl⟩ := hn'
          refine ⟨v, k, b, h0, ha', hlt, hk', hb, ?_⟩
          simpa [State.lastOf] using h.symm
        · exact absurd h (by simp)
      · exact absurd hk (by simp)
    · exact absurd h (by simp)
    · exact absurd h (by simp)
  · rintro ⟨a, k, b, h0, ha, hlt, hk, hb, rfl⟩
    have hn : cyclicIndex (loopIndex s.cnt) (keyWordCount s.klen) =
        some ((loopIndex s.cnt).toNat % keyWordCount s.klen) := cyclicIndex_pos (by omega) _
    rw [Memory.fetch_of_read? (word_index_lt _) ha, hn]
    simp only [Memory.fetch_of_read? hlt hk]
    rw [Memory.swap_ok_iff.mpr ⟨a, b, ha, hb, rfl⟩]
    simp [State.lastOf]

/-- All that uPRGA can do (rule R74). -/
theorem uPRGA_ok_iff {s t : State} {w : Word} :
    uPRGA s = .ok (t, w) ↔
      ∃ a b : Word, s.S.read? (add16 s.i 1).toNat = some a ∧ s.S.read? (add16 a s.j).toNat = some b ∧
        ((s.S.write (add16 s.i 1).toNat b).write (add16 a s.j).toNat a).read? (add16 b a).toNat = some w ∧
        t = { s with S := (s.S.write (add16 s.i 1).toNat b).write (add16 a s.j).toNat a,
                     i := add16 s.i 1, j := add16 a s.j } := by
  have hread (a b : Word) (ha : s.S.read? (add16 s.i 1).toNat = some a)
      (hb : s.S.read? (add16 a s.j).toNat = some b) :
      Memory.fetch .S ((s.S.write (add16 s.i 1).toNat b).write (add16 a s.j).toNat a) (add16 s.i 1).toNat = .ok b ∧
      Memory.fetch .S ((s.S.write (add16 s.i 1).toNat b).write (add16 a s.j).toNat a) (add16 a s.j).toNat = .ok a := by
    constructor
    · refine Memory.fetch_of_read? (word_index_lt _) ?_
      rw [Memory.read?_write]
      split
      · rename_i heq; rw [← heq, ha] at hb; simpa using hb
      · simp
    · exact Memory.fetch_of_read? (word_index_lt _) (Memory.read?_write_self _ _ _)
  simp only [uPRGA]
  constructor
  · intro h
    split at h
    · exact absurd h (by simp)
    · rename_i a ha
      split at h
      · exact absurd h (by simp)
      · rename_i m hm
        obtain ⟨v, b, hv, hb, rfl⟩ := Memory.swap_ok_iff.mp hm
        have ha' := (Memory.fetch_ok_iff.mp ha).2
        have hva : v = a := by rw [ha'] at hv; simpa using hv.symm
        subst hva
        obtain ⟨h1, h2⟩ := hread v b ha' hb
        rw [h1, h2] at h
        simp only at h
        split at h
        · rename_i w' hw
          simp only [Except.ok.injEq, Prod.mk.injEq] at h
          obtain ⟨rfl, rfl⟩ := h
          exact ⟨v, b, ha', hb, (Memory.fetch_ok_iff.mp hw).2, rfl⟩
        · exact absurd h (by simp)
  · rintro ⟨a, b, ha, hb, hw, rfl⟩
    obtain ⟨h1, h2⟩ := hread a b ha hb
    rw [Memory.fetch_of_read? (word_index_lt _) ha]
    simp only [Memory.swap_ok_iff.mpr ⟨a, b, ha, hb, rfl⟩, h1, h2]
    rw [Memory.fetch_of_read? (word_index_lt _) hw]

/-- All that uDROP can do (rule R76): what uPRGA does, its word thrown away. -/
theorem uDROP_ok_iff {s t : State} :
    uDROP s = .ok t ↔ ∃ u w, uPRGA s = .ok (u, w) ∧ t = if u.lastOf Config.dropSteps then u.goto .ready else u.count := by
  simp only [uDROP]
  cases h : uPRGA s with
  | error f => simp
  | ok p =>
    obtain ⟨u, w⟩ := p
    constructor
    · intro ht; exact ⟨u, w, rfl, by simpa using ht.symm⟩
    · rintro ⟨u', w', h', rfl⟩
      simp only [Except.ok.injEq, Prod.mk.injEq] at h'
      obtain ⟨rfl, rfl⟩ := h'
      rfl

/-- All that CRYPT does in READY (rule R81): one uPRGA, and the response to it. -/
theorem encryptByte_ok_iff {s t : State} {d : Byte} :
    encryptByte s d = .ok t ↔ ∃ u w, uPRGA s = .ok (u, w) ∧ t = u.respond (uXOR d (uEXTRACT w)) := by
  simp only [encryptByte]
  cases h : uPRGA s with
  | error f => simp
  | ok p =>
    obtain ⟨u, w⟩ := p
    constructor
    · intro ht; exact ⟨u, w, rfl, by simpa using ht.symm⟩
    · rintro ⟨u', w', h', rfl⟩
      simp only [Except.ok.injEq, Prod.mk.injEq] at h'
      obtain ⟨rfl, rfl⟩ := h'
      rfl

/-- What uFILL leaves in each field (rule R70). -/
theorem uFILL_eq (s : State) :
    uFILL s =
      if s.lastOf Config.fillSteps then
        State.goto { s with S := s.S.write (loopIndex s.cnt).toNat (loopIndex s.cnt), j := 0 } .ksa
      else State.count { s with S := s.S.write (loopIndex s.cnt).toNat (loopIndex s.cnt) } := rfl

/-- The last micro-step of a phase, by the value of `CNT`. -/
theorem State.lastOf_iff (s : State) (steps : Nat) : s.lastOf steps = true ↔ s.cnt.toNat + 1 = steps := by
  simp [State.lastOf]

end Sys2Proof.Machine
end

