-- ==== Sys2Proof/Laws/PerInstr.lean ====
section
/-! SUPPORT. What holds of every command as syntax, stated once per constructor. -/

namespace Sys2Proof.Laws

/-- The word of a command is legal by rule R57's formula, selects its own row of rule R56's table, and has `ZERO` = 0. -/
def EncodingLegal.Statement (i : Instr) : Prop :=
  legal (encode i) = true ∧ (opcodeRow i).selects (encode i) = true ∧ fieldZero (encode i) = 0

theorem EncodingLegal.rst : EncodingLegal.Statement .rst := by
  unfold EncodingLegal.Statement; decide

theorem EncodingLegal.keyb : ∀ data, EncodingLegal.Statement (.keyb data) := by
  unfold EncodingLegal.Statement; decide

theorem EncodingLegal.sched : EncodingLegal.Statement .sched := by
  unfold EncodingLegal.Statement; decide

theorem EncodingLegal.crypt : ∀ data, EncodingLegal.Statement (.crypt data) := by
  unfold EncodingLegal.Statement; decide

theorem EncodingLegal.stat : EncodingLegal.Statement .stat := by
  unfold EncodingLegal.Statement; decide

end Sys2Proof.Laws
end

