-- ==== Sys2Proof/Laws/Run.lean ====
section
/-! SUPPORT. Runs of the machine: unfolding, splitting, and the one induction that lifts a step to a run. -/

namespace Sys2Proof.Machine

/-- No step. -/
@[simp] theorem runSteps_zero (s : State) : runSteps 0 s = .next s := rfl

/-- The run is the host's own run of the core. -/
theorem coreRun_eq_runSteps (n : Nat) (s : State) : Host.Core.run Sys2Proof.core n s = runSteps n s := by
  induction n generalizing s with
  | zero => rfl
  | succ n ih =>
    cases h : step s with
    | next t =>
      have h' : Sys2Proof.core.step s = .next t := h
      simp only [Host.Core.run, runSteps, h', h]; exact ih t
    | fault f =>
      have h' : Sys2Proof.core.step s = .fault f := h
      simp only [Host.Core.run, runSteps, h', h]; rfl
    | refused r =>
      have h' : Sys2Proof.core.step s = .refused r := h
      simp only [Host.Core.run, runSteps, h', h]; rfl

/-- A first step, then the rest. -/
theorem runSteps_succ {s t : State} (n : Nat) (h : step s = .next t) : runSteps (n + 1) s = runSteps n t := by
  simp only [runSteps, h]

/-- A run of at least one step begins with a step. -/
theorem runSteps_succ_next {s t : State} {n : Nat} (h : runSteps (n + 1) s = .next t) :
    ∃ u, step s = .next u ∧ runSteps n u = .next t := by
  simp only [runSteps] at h
  cases hs : step s with
  | next u => exact ⟨u, rfl, by simpa [hs] using h⟩
  | fault f => simp [hs] at h
  | refused r => simp [hs] at h

/-- One step. -/
theorem runSteps_one {s t : State} (h : step s = .next t) : runSteps 1 s = .next t := by
  rw [runSteps_succ 0 h]; rfl

/-- A run cut in two. -/
theorem runSteps_add {s t : State} {m : Nat} (n : Nat) (h : runSteps m s = .next t) :
    runSteps (m + n) s = runSteps n t := by
  induction m generalizing s with
  | zero => cases h; rw [Nat.zero_add]
  | succ m ih =>
    obtain ⟨u, hu, ht⟩ := runSteps_succ_next h
    rw [Nat.add_right_comm, runSteps_succ _ hu, ih ht]

/-- A last step after a run. -/
theorem runSteps_snoc {s t u : State} {n : Nat} (h : runSteps n s = .next t) (hu : step t = .next u) :
    runSteps (n + 1) s = .next u := by
  rw [runSteps_add 1 h]; exact runSteps_one hu

/-- What every step keeps, every run keeps. -/
theorem runSteps_keeps {P : State → Prop} (hP : ∀ s t, P s → step s = .next t → P t) {n : Nat} {s t : State} (hs : P s)
    (h : runSteps n s = .next t) : P t := by
  induction n generalizing s with
  | zero => cases h; exact hs
  | succ n ih =>
    obtain ⟨u, hu, ht⟩ := runSteps_succ_next h
    exact ih (hP s u hs hu) ht

/-- A family of states, each stepping to the next, is a run: the induction behind the phases of SCHED. -/
theorem runSteps_of_forall {P : Nat → State → Prop} {n : Nat} {s : State} (h0 : P 0 s)
    (hstep : ∀ k < n, ∀ t, P k t → ∃ u, step t = .next u ∧ P (k + 1) u) :
    ∀ k ≤ n, ∃ t, runSteps k s = .next t ∧ P k t := by
  intro k hk
  induction k with
  | zero => exact ⟨s, rfl, h0⟩
  | succ k ih =>
    obtain ⟨t, ht, hP⟩ := ih (by omega)
    obtain ⟨u, hu, hP'⟩ := hstep k (by omega) t hP
    exact ⟨u, runSteps_snoc ht hu, hP'⟩

end Sys2Proof.Machine
end

