-- ==== Sys2Proof/Laws/Step.lean ====
section
/-! SUPPORT. What one step can do, said once: `step_cases` lists every case with its guards, and each case has its equation for the
forward direction. Proofs about `step` cite these. -/

namespace Sys2Proof.Machine

/-- The host keeps the core waiting, and `moves` is what it holds afterwards: it has no move, or a command the core does not take yet,
or a hard reset still to come. -/
def State.Waits (s : State) (moves : List HostMove) : Prop :=
  (moves = s.host ∧ s.resetPending = false ∧ s.taken = none) ∨
  ∃ delay rest, s.host = .hardReset (delay + 1) :: rest ∧ moves = .hardReset delay :: rest

/-- Why a command word taken in KEYLOAD or READY raises an error (rules R89, R96). -/
inductive Raises (s : State) (w : Word) : Cause → Prop
  | illegal (e : DecodeError) (hd : decode w = .error e) : Raises s w .illegalCommand
  | keybInReady (d : Byte) (hd : decode w = .ok (.keyb d)) (hp : s.phase = .ready) : Raises s w .sequenceError
  | schedInReady (hd : decode w = .ok .sched) (hp : s.phase = .ready) : Raises s w .sequenceError
  | cryptInKeyload (d : Byte) (hd : decode w = .ok (.crypt d)) (hp : s.phase = .keyload) : Raises s w .sequenceError
  | emptyKey (hd : decode w = .ok .sched) (hp : s.phase = .keyload) (hk : s.klen = 0) : Raises s w .keyScheduleError

/-- Every case of a step from `s` to `t`. -/
inductive StepCase (s t : State) : Prop
  | hardReset (rest : List HostMove) (hh : s.host = .hardReset 0 :: rest) (ht : t = (s.withHost rest).resetCore)
  | idle (moves : List HostMove) (ha : s.phase.accepting = true) (hw : s.Waits moves) (ht : t = s.withHost moves)
  | fill (moves : List HostMove) (hp : s.phase = .fill) (hw : s.Waits moves) (ht : t = uFILL (s.withHost moves))
  | ksa (moves : List HostMove) (hp : s.phase = .ksa) (hw : s.Waits moves) (ht : uKSA (s.withHost moves) = .ok t)
  | drop (moves : List HostMove) (hp : s.phase = .drop) (hw : s.Waits moves) (u : State) (w : Word)
      (hu : uPRGA (s.withHost moves) = .ok (u, w))
      (ht : t = if u.lastOf Config.dropSteps then (u.goto .ready).respond 0 else u.count)
  | rst (w : Word) (rest : List HostMove) (ha : s.phase.accepting = true) (hh : s.host = .command w :: rest)
      (hd : decode w = .ok .rst) (ht : t = (s.withHost rest).resetCore.respond 0)
  | stat (w : Word) (rest : List HostMove) (ha : s.phase.accepting = true) (hh : s.host = .command w :: rest)
      (hd : decode w = .ok .stat) (ht : t = (s.withHost rest).respond 0)
  | ignored (w : Word) (rest : List HostMove) (hp : s.phase = .error) (hh : s.host = .command w :: rest)
      (hd : decode w ≠ .ok .rst) (ht : t = (s.withHost rest).respond 0)
  | raised (w : Word) (rest : List HostMove) (c : Cause) (hp : s.phase = .keyload ∨ s.phase = .ready)
      (hh : s.host = .command w :: rest) (hc : Raises s w c) (ht : t = (s.withHost rest).raise c)
  | keyb (w : Word) (rest : List HostMove) (d : Byte) (hp : s.phase = .keyload) (hh : s.host = .command w :: rest)
      (hd : decode w = .ok (.keyb d)) (u : State) (hu : ingestKeyByte (s.withHost rest) d = .ok u) (ht : t = u.respond 0)
  | sched (w : Word) (rest : List HostMove) (hp : s.phase = .keyload) (hh : s.host = .command w :: rest)
      (hd : decode w = .ok .sched) (hk : s.klen ≠ 0) (ht : t = (s.withHost rest).goto .fill)
  | crypt (w : Word) (rest : List HostMove) (d : Byte) (hp : s.phase = .ready) (hh : s.host = .command w :: rest)
      (hd : decode w = .ok (.crypt d)) (ht : encryptByte (s.withHost rest) d = .ok t)

/-- In a phase that takes commands the core does nothing on its own (rule R103). -/
theorem microStep_idle {s : State} (h : s.phase.accepting = true) : microStep s = .next s := by
  rcases (Phase.accepting_iff _).mp h with hp | hp | hp <;> simp [microStep, hp]

/-- In FILL the core makes one uFILL. -/
theorem microStep_fill {s : State} (h : s.phase = .fill) : microStep s = .next (uFILL s) := by simp [microStep, h]

/-- In KSA it makes one uKSA. -/
theorem microStep_ksa_iff {s t : State} (h : s.phase = .ksa) : microStep s = .next t ↔ uKSA s = .ok t := by
  simp [microStep, h]

/-- In DROP it makes one uPRGA, throws the word away, and after the last one answers SCHED (rules R69, R76). -/
theorem microStep_drop_iff {s t : State} (h : s.phase = .drop) :
    microStep s = .next t ↔ ∃ u w, uPRGA s = .ok (u, w) ∧
      t = if u.lastOf Config.dropSteps then (u.goto .ready).respond 0 else u.count := by
  have hfin (u : State) (hu : u.phase = .drop) :
      finishSched (if u.lastOf Config.dropSteps then u.goto .ready else u.count) =
        if u.lastOf Config.dropSteps then (u.goto .ready).respond 0 else u.count := by
    by_cases hl : u.lastOf Config.dropSteps = true
    · rw [if_pos hl, if_pos hl, finishSched, if_pos (State.goto_phase u .ready)]
    · rw [if_neg hl, if_neg hl, finishSched, if_neg (by simp [hu])]
  have hdrop {u : State} {w : Word} (hu : uPRGA s = .ok (u, w)) : u.phase = .drop := by
    obtain ⟨a, b, -, -, -, rfl⟩ := uPRGA_ok_iff.mp hu; exact h
  simp only [microStep, h, outcomeOf_next_iff, map_ok_iff, uDROP_ok_iff]
  constructor
  · rintro ⟨_, ⟨u, w, hu, rfl⟩, rfl⟩
    exact ⟨u, w, hu, hfin u (hdrop hu)⟩
  · rintro ⟨u, w, hu, rfl⟩
    exact ⟨_, ⟨u, w, hu, rfl⟩, hfin u (hdrop hu)⟩

/-- A step on which the core waits for nothing is a micro-step. -/
theorem step_waits {s : State} {moves : List HostMove} (h : s.Waits moves) : step s = microStep (s.withHost moves) := by
  rcases h with ⟨rfl, hr, ht⟩ | ⟨delay, rest, hh, rfl⟩
  · simp only [step, advance, State.resetPending, State.taken, State.withHost_self] at *
    split
    · rfl
    · rename_i w rest hw
      simp only [hw] at ht
      split at ht
      · exact absurd ht (by simp)
      · rename_i hb; rw [if_neg hb]
    · rename_i hw; simp [hw] at hr
    · rename_i hw; simp [hw] at hr
  · simp only [step, advance, hh]; rfl

/-- A step on which a command is taken. -/
theorem step_takes {s : State} {w : Word} {rest : List HostMove} (ha : s.phase.accepting = true)
    (hh : s.host = .command w :: rest) : step s = takeCommand w (s.withHost rest) := by
  simp only [step, advance, hh, ha, if_true]; rfl

/-- A step on which a hard reset strikes. -/
theorem step_reset {s : State} {rest : List HostMove} (hh : s.host = .hardReset 0 :: rest) :
    step s = .next (s.withHost rest).resetCore := by
  simp only [step, advance, hh]; rfl

/-- Every state's host either waits, presents a command the core takes, or resets it. -/
theorem host_cases (s : State) :
    (∃ rest, s.host = .hardReset 0 :: rest) ∨ (∃ moves, s.Waits moves) ∨
      ∃ w rest, s.phase.accepting = true ∧ s.host = .command w :: rest := by
  cases hh : s.host with
  | nil => exact .inr (.inl ⟨[], .inl ⟨hh.symm, by simp [State.resetPending, hh], by simp [State.taken, hh]⟩⟩)
  | cons m rest =>
    cases m with
    | command w =>
      by_cases ha : s.phase.accepting = true
      · exact .inr (.inr ⟨w, rest, ha, rfl⟩)
      · exact .inr (.inl ⟨.command w :: rest, .inl ⟨hh.symm, by simp [State.resetPending, hh],
          by simp [State.taken, hh, ha]⟩⟩)
    | hardReset delay =>
      cases delay with
      | zero => exact .inl ⟨rest, rfl⟩
      | succ n => exact .inr (.inl ⟨_, .inr ⟨n, rest, hh, rfl⟩⟩)

/-- A busy core, or one with no command and no reset before it, waits with its host's moves as they are. -/
theorem State.waits_of_busy {s : State} (hb : s.busy = true) (hr : s.resetPending = false) : s.Waits s.host := by
  refine .inl ⟨rfl, hr, ?_⟩
  have : s.phase.accepting = false := by simpa [State.busy] using hb
  simp only [State.taken, this]
  split <;> simp

/-- One inversion for the step: whatever it does is one of the cases. -/
theorem step_cases {s t : State} (h : step s = .next t) : StepCase s t := by
  rcases host_cases s with ⟨rest, hh⟩ | ⟨moves, hw⟩ | ⟨w, rest, ha, hh⟩
  · rw [step_reset hh] at h
    exact .hardReset rest hh (by simpa using h.symm)
  · rw [step_waits hw] at h
    cases hp : s.phase with
    | keyload => rw [microStep_idle (s := s.withHost moves) (by simp [hp, Phase.accepting])] at h
                 exact .idle moves (by simp [hp, Phase.accepting]) hw (by simpa using h.symm)
    | ready => rw [microStep_idle (s := s.withHost moves) (by simp [hp, Phase.accepting])] at h
               exact .idle moves (by simp [hp, Phase.accepting]) hw (by simpa using h.symm)
    | error => rw [microStep_idle (s := s.withHost moves) (by simp [hp, Phase.accepting])] at h
               exact .idle moves (by simp [hp, Phase.accepting]) hw (by simpa using h.symm)
    | fill => rw [microStep_fill (s := s.withHost moves) hp] at h
              exact .fill moves hp hw (by simpa using h.symm)
    | ksa => exact .ksa moves hp hw ((microStep_ksa_iff (s := s.withHost moves) hp).mp h)
    | drop => obtain ⟨u, w, hu, ht⟩ := (microStep_drop_iff (s := s.withHost moves) hp).mp h
              exact .drop moves hp hw u w hu ht
  · rw [step_takes ha hh] at h
    have hph := (Phase.accepting_iff _).mp ha
    have ha' : (s.withHost rest).phase.accepting = true := ha
    simp only [takeCommand] at h
    cases hd : decode w with
    | error e =>
      simp only [hd, takeIllegal] at h
      rcases hph with hp | hp | hp
      · rw [unlessError_other (s := s.withHost rest) (.inl hp)] at h
        exact .raised w rest _ (.inl hp) hh (.illegal e hd) (by simpa using h.symm)
      · rw [unlessError_other (s := s.withHost rest) (.inr hp)] at h
        exact .raised w rest _ (.inr hp) hh (.illegal e hd) (by simpa using h.symm)
      · rw [unlessError_error (s := s.withHost rest) hp] at h
        exact .ignored w rest hp hh (by simp [hd]) (by simpa using h.symm)
    | ok i =>
      simp only [hd] at h
      cases i with
      | rst =>
        simp only [exec, execRst, whenAccepting_accepting ha'] at h
        exact .rst w rest ha hh hd (by simpa using h.symm)
      | stat =>
        simp only [exec, execStat, whenAccepting_accepting ha'] at h
        exact .stat w rest ha hh hd (by simpa using h.symm)
      | keyb d =>
        rcases onlyIn_cases h with ⟨hp, rfl⟩ | ⟨hp, hne, rfl⟩ | ⟨-, hp, hrun⟩
        · exact .ignored w rest hp hh (by simp [hd]) rfl
        · have hp' : s.phase = .ready := by rcases hp with hp | hp; exacts [absurd hp hne, hp]
          exact .raised w rest _ (.inr hp') hh (.keybInReady d hd hp') rfl
        · simp only [outcomeOf_next_iff, map_ok_iff] at hrun
          obtain ⟨u, hu, rfl⟩ := hrun
          exact .keyb w rest d hp hh hd u hu rfl
      | sched =>
        rcases onlyIn_cases h with ⟨hp, rfl⟩ | ⟨hp, hne, rfl⟩ | ⟨-, hp, hrun⟩
        · exact .ignored w rest hp hh (by simp [hd]) rfl
        · have hp' : s.phase = .ready := by rcases hp with hp | hp; exacts [absurd hp hne, hp]
          exact .raised w rest _ (.inr hp') hh (.schedInReady hd hp') rfl
        · by_cases hk : (s.withHost rest).klen = 0
          · rw [if_pos hk] at hrun
            exact .raised w rest _ (.inl hp) hh (.emptyKey hd hp hk) (by simpa using hrun.symm)
          · rw [if_neg hk] at hrun
            exact .sched w rest hp hh hd hk (by simpa using hrun.symm)
      | crypt d =>
        rcases onlyIn_cases h with ⟨hp, rfl⟩ | ⟨hp, hne, rfl⟩ | ⟨-, hp, hrun⟩
        · exact .ignored w rest hp hh (by simp [hd]) rfl
        · have hp' : s.phase = .keyload := by rcases hp with hp | hp; exacts [hp, absurd hp hne]
          exact .raised w rest _ (.inl hp') hh (.cryptInKeyload d hd hp') rfl
        · exact .crypt w rest d hp hh hd (by simpa using hrun)

/-- The converse: in each case the step makes that move, so that a run can be built case by case. -/
theorem step_of_case {s t : State} (h : StepCase s t) : step s = .next t := by
  have acc {p : Phase} (h : s.phase = p) (hp : p.accepting = true) : s.phase.accepting = true := h ▸ hp
  cases h with
  | hardReset rest hh ht => rw [step_reset hh, ht]
  | idle moves ha hw ht => rw [step_waits hw, microStep_idle (s := s.withHost moves) ha, ht]
  | fill moves hp hw ht => rw [step_waits hw, microStep_fill (s := s.withHost moves) hp, ht]
  | ksa moves hp hw ht => rw [step_waits hw]; exact (microStep_ksa_iff (s := s.withHost moves) hp).mpr ht
  | drop moves hp hw u w hu ht =>
    rw [step_waits hw]; exact (microStep_drop_iff (s := s.withHost moves) hp).mpr ⟨u, w, hu, ht⟩
  | rst w rest ha hh hd ht =>
    rw [step_takes ha hh, takeCommand, hd, ht]; exact whenAccepting_accepting (s := s.withHost rest) ha _
  | stat w rest ha hh hd ht =>
    rw [step_takes ha hh, takeCommand, hd, ht]; exact whenAccepting_accepting (s := s.withHost rest) ha _
  | ignored w rest hp hh hd ht =>
    have ha := acc hp rfl
    rw [step_takes ha hh, takeCommand, ht]
    cases hw : decode w with
    | error e => exact unlessError_error (s := s.withHost rest) hp _
    | ok i =>
      cases i with
      | rst => exact absurd hw hd
      | stat => exact whenAccepting_accepting (s := s.withHost rest) ha _
      | keyb d => exact onlyIn_error (s := s.withHost rest) _ hp _
      | sched => exact onlyIn_error (s := s.withHost rest) _ hp _
      | crypt d => exact onlyIn_error (s := s.withHost rest) _ hp _
  | raised w rest c hp hh hc ht =>
    have ha : s.phase.accepting = true := (Phase.accepting_iff _).mpr (hp.imp id .inl)
    rw [step_takes ha hh, takeCommand, ht]
    cases hc with
    | illegal e hd => rw [hd]; exact unlessError_other (s := s.withHost rest) hp _
    | keybInReady d hd hp' => rw [hd]; exact onlyIn_misplaced (s := s.withHost rest) hp (by simp [hp']) _
    | schedInReady hd hp' => rw [hd]; exact onlyIn_misplaced (s := s.withHost rest) hp (by simp [hp']) _
    | cryptInKeyload d hd hp' => rw [hd]; exact onlyIn_misplaced (s := s.withHost rest) hp (by simp [hp']) _
    | emptyKey hd hp' hk =>
      rw [hd]
      exact (onlyIn_own (s := s.withHost rest) (.inl rfl) hp' _).trans (if_pos (c := (s.withHost rest).klen = 0) hk)
  | keyb w rest d hp hh hd u hu ht =>
    rw [step_takes (acc hp rfl) hh, takeCommand, hd, ht]
    refine (onlyIn_own (s := s.withHost rest) (.inl rfl) hp _).trans ?_
    rw [hu]; rfl
  | sched w rest hp hh hd hk ht =>
    rw [step_takes (acc hp rfl) hh, takeCommand, hd, ht]
    exact (onlyIn_own (s := s.withHost rest) (.inl rfl) hp _).trans (if_neg (c := (s.withHost rest).klen = 0) hk)
  | crypt w rest d hp hh hd ht =>
    rw [step_takes (acc hp rfl) hh, takeCommand, hd]
    refine (onlyIn_own (s := s.withHost rest) (.inr rfl) hp _).trans ?_
    rw [ht]; rfl

end Sys2Proof.Machine
end

