-- ==== Sys2Proof/Tests/Slice0.lean ====
section
/-! SUPPORT. The model's own tests, and a witness for the hypotheses of every statement. Expected values come from the spec: the test
vectors of spec/95_test_vectors.md (named in each comment) and the worked examples of the rules. -/

namespace Sys2Proof.Tests

open Sys2Proof.Machine

/-! ### Well-formedness: an ill-formed line for each check -/

/-- 256 is not a byte. -/
theorem test_wf_keyb_literal : Line.wf (.keyb 256) = false ∧ Line.wf (.keyb 255) = true := by decide

/-- The same for CRYPT. -/
theorem test_wf_crypt_literal : Line.wf (.crypt 256) = false ∧ Line.wf (.crypt 255) = true := by decide

/-- Every literal of `KEY`, `STREAM` and of both halves of `SESSION` is checked, the last one too. -/
theorem test_wf_lists : Line.wf (.key [0, 256]) = false ∧ Line.wf (.stream [256, 0]) = false ∧
    Line.wf (.session [256] [0]) = false ∧ Line.wf (.session [0] [256]) = false ∧ Line.wf (.session [] []) = true := by
  decide

/-- A program with an ill-formed line does not assemble. -/
theorem test_wf_program : assemble [.rst, .keyb 300] = none := by decide

/-! ### Decoding: words written out bit by bit (spec/95_test_vectors.md section 2.8, opcode_table.json) -/

/-- RST. -/
theorem test_decode_rst : decode 0b0001_0000_00000000 = .ok .rst := by rfl
/-- KEYB 0xAB and the legal zero key byte. -/
theorem test_decode_keyb :
    decode 0b0010_0000_10101011 = .ok (.keyb 0xAB) ∧ decode 0b0010_0000_00000000 = .ok (.keyb 0) := ⟨rfl, rfl⟩
/-- SCHED. -/
theorem test_decode_sched : decode 0b0011_0000_00000000 = .ok .sched := by rfl
/-- CRYPT 0x41. -/
theorem test_decode_crypt : decode 0b0100_0000_01000001 = .ok (.crypt 0x41) := by rfl
/-- STAT. -/
theorem test_decode_stat : decode 0b0101_0000_00000000 = .ok .stat := by rfl
/-- The reasons for rejection: reserved `OP` 0, 6 and 15, `ZERO`, `DATA` (rule R57). -/
theorem test_decode_rejects_by_name :
    decode 0x0041 = .error (.reservedOp 0) ∧ decode 0x6000 = .error (.reservedOp 6) ∧
    decode 0xFFFF = .error (.reservedOp 15) ∧ decode 0x4100 = .error (.zeroFieldNotZero 4 1) ∧
    decode 0x1001 = .error (.operandNotZero 1 1) ∧ decode 0x3080 = .error (.operandNotZero 3 0x80) := by
  refine ⟨rfl, rfl, rfl, rfl, rfl, rfl⟩
/-- A table row's word through the host's entry point. -/
theorem test_decode_table_word :
    decodeTableWord 16 0x20AB = some (.keyb 0xAB) ∧ decodeTableWord 16 0x0000 = none ∧ decodeTableWord 24 0x20AB = none := by
  decide

/-! ### The assembler (rules R60, R61) -/

/-- Program P1 of spec/95_test_vectors.md, with a comment, a blank line, hexadecimal and decimal literals. -/
theorem test_assemble_text :
    assembleText "KEY 0x00, 0x01 -- key\n\nSCHED\nCRYPT 65\nKS".toList = some [0x2000, 0x2001, 0x3000, 0x4041, 0x4000] := by
  decide

/-- `SESSION` with two lists. -/
theorem test_assemble_session :
    assembleText "SESSION 0xAB; 0x41, 0x42".toList = some [0x1000, 0x20AB, 0x3000, 0x4041, 0x4042] := by
  decide

/-! ### Arithmetic (spec/95_test_vectors.md A1 to A17) -/

/-- A1 to A6. -/
theorem test_add16 : add16 0 1 = 1 ∧ add16 0xFFFF 1 = 0 ∧ add16 0xFFFF 0xFFFF = 0xFFFE ∧
    add16Three 0xFFFF 0xFFFF 0xFFFF = 0xFFFD ∧ add16Three 0xAB00 0x0001 0xAB00 = 0x5601 ∧
    add16 0x5D61 0x2FBE = 0x8D1F := by decide
/-- A7 to A12. -/
theorem test_extract : [0x1234, 0xF00F, 0x0FF0, 0xFFFF, 0x0000, 0xB43E, 0x8000, 0x0800, 0x0010, 0x0008].map extract =
    [0x23, 0x00, 0xFF, 0xFF, 0x00, 0x43, 0x00, 0x80, 0x01, 0x00] := by decide
/-- A13, A14. -/
theorem test_xor : xorByte 0x41 0x43 = 0x02 ∧ xorByte 0x02 0x43 = 0x41 ∧ xorByte 0xFF 0x99 = 0x66 ∧
    xorByte 0x99 0x99 = 0 := by decide
/-- A15. -/
theorem test_pair : pair 0xAB 0x00 = 0xAB00 ∧ pair 0x00 0x01 = 0x0001 ∧ pair 0xFF 0xFF = 0xFFFF := by decide
/-- A16. -/
theorem test_cyclic : cyclicIndex 5 1 = some 0 ∧ cyclicIndex 5 2 = some 1 ∧ cyclicIndex 65535 65536 = some 65535 ∧
    cyclicIndex 65535 3 = some 0 ∧ cyclicIndex 5 0 = none := by decide
/-- A17. -/
theorem test_key_word_count :
    [0, 1, 2, 3, 131071, 131072].map keyWordCount = [0, 1, 1, 2, 65536, 65536] := by decide

/-! ### Commands, one step each -/

/-- The state the host drives with these words. -/
def driven (s : State) (words : List Word) : State := s.withHost (words.map .command)

/-- The reset state with part of a key loaded. -/
def loaded (klen : BitVec 18) (K : Memory) : State := { State.reset with klen := klen, K := K }

/-- A core in ERROR after SCHED with the empty key: `STATUS` = 0x17. -/
def dead : State := { State.reset with phase := .error, ecode := .keyScheduleError }

/-- A property of the state one step leaves. -/
def stepped (s : State) (p : State → Bool) : Bool :=
  match step s with
  | .next t => p t
  | .fault _ => false
  | .refused _ => false

/-- The responses of one step. -/
def answers (s : State) : Option (List Word) :=
  match step s with
  | .next t => some t.responses
  | .fault _ => none
  | .refused _ => none

/-- K1's second byte completes the pair. -/
theorem test_keyb_second_byte : stepped (driven (loaded 1 [(0, 0x0000)]) [0x2001])
    (fun t => t.K == [(0, 0x0001)] && t.klen == 2 && t.responses == [0]) := by decide
/-- K4's third byte writes a whole word with a zero low byte. -/
theorem test_keyb_odd_key : stepped (driven (loaded 2 [(0, 0x0102)]) [0x2003])
    (fun t => t.K == [(0, 0x0102), (1, 0x0300)] && t.klen == 3 && !t.ktrunc) := by decide
/-- E1: SCHED with the empty key. -/
theorem test_sched_empty_key : answers (driven .reset [0x3000]) = some [0x1700] := by decide
/-- R69, R23: SCHED with a key goes to FILL and answers nothing yet. -/
theorem test_sched_starts : stepped (driven (loaded 1 [(0, 0xAB00)]) [0x3000])
    (fun t => t.phase == .fill && t.cnt == 0 && t.responses == [] && t.host == []) := by decide
/-- E2: RST leaves ERROR. -/
theorem test_rst_leaves_error : stepped (driven dead [0x1000])
    (fun t => t.status == 0x00 && t.phase == .keyload && t.responses == [0x0000]) := by decide
/-- E14, E12: 0x1001 is not RST; in ERROR it is not recorded. -/
theorem test_rst_with_operand_is_illegal :
    answers (driven .reset [0x1001]) = some [0x2700] ∧ answers (driven dead [0x1001]) = some [0x1700] := by decide
/-- E3: CRYPT in KEYLOAD. -/
theorem test_crypt_in_keyload : answers (driven .reset [0x4041]) = some [0x3700] := by decide
/-- E5 to E8: illegal words, the priority of IllegalCommand over the other errors included. -/
theorem test_illegal_words : [0xFFFF, 0x2100, 0x3001, 0x4141].map (fun w => answers (driven .reset [w])) =
    [some [0x2700], some [0x2700], some [0x2700], some [0x2700]] := by decide
/-- E2: STAT reports the cause again. -/
theorem test_stat_in_error : answers (driven dead [0x5000]) = some [0x1700] := by decide

/-- A READY state with a few words of an identity permutation, as G1 to G5 want it. -/
def onIdentity (i j : Word) : State :=
  { State.reset with phase := .ready, klen := 1, i := i, j := j,
                     S := [0, 1, 2, 3, 5, 65535].map fun a => (a, BitVec.ofNat 16 a) }

/-- What one uPRGA on it gives: new `i`, new `j`, the words of `S` that changed, and `W`. -/
def prgaOn (i j : Word) : Option (Word × Word × Memory × Word) :=
  match uPRGA (onIdentity i j) with
  | .ok (t, w) => some (t.i, t.j, t.S.filter (fun c => c.2 != BitVec.ofNat 16 c.1), w)
  | .error _ => none

/-- G1 to G5. -/
theorem test_prga_corners :
    prgaOn 0 0 = some (1, 1, [], 2) ∧ prgaOn 65535 0 = some (0, 0, [], 0) ∧
    prgaOn 4 65531 = some (5, 0, [(0, 5), (5, 0)], 0) ∧ prgaOn 0 1 = some (1, 2, [(1, 2), (2, 1)], 3) ∧
    prgaOn 65534 2 = some (65535, 1, [(1, 65535), (65535, 1)], 0) := ⟨rfl, rfl, rfl, rfl, rfl⟩

/-- P1's first CRYPT, on the words of `S` that its table names: `S[1]` = 2FBE, `j` = 5D61, `S[8D1F]` = FFE5,
`S[FFE5 + 2FBE]` = B43E; output 02. -/
theorem test_crypt_first_byte :
    answers { driven .reset [0x4041] with
      phase := .ready, j := 0x5D61, S := [(1, 0x2FBE), (0x2FA3, 0xB43E), (0x8D1F, 0xFFE5)] } = some [0x0402] := by decide

/-- KS2's first row, and KS1's last: uKSA adds the key word, swaps with the new `j`, and the last step clears `j`. -/
theorem test_ksa_rows :
    stepped { loaded 1 [(0, 0xAB00)] with phase := .ksa, S := [(0, 0), (0xAB00, 0xAB00)] }
      (fun t => t.j == 0xAB00 && t.S == [(0, 0xAB00), (0xAB00, 0)] && t.cnt == 1) ∧
    stepped { loaded 2 [(0, 1)] with phase := .ksa, cnt := 65535, j := 65535, S := [(0, 1), (65535, 0)] }
      (fun t => t.phase == .drop && t.cnt == 0 && t.i == 0 && t.j == 0 && t.S == [(0, 0), (65535, 1)]) := by decide

/-- The host's entry point: the next step runs exactly the word. -/
theorem test_fetch_word : answers (State.reset.withFetchWord 16 0x5000) = some [0] ∧
    answers (State.reset.withFetchWord 16 0x4041) = some [0x3700] := by decide

/-! ### States that meet the invariant, for the witnesses -/

/-- The key 0xAB loaded, `m` in the permutation memory, in a phase of the sequencer. -/
def keyedIn (m : Memory) (p : Phase) (n : BitVec 20) : State :=
  { State.reset with S := m, K := [(0, 0xAB00)], klen := 1, phase := p, cnt := n,
                     i := if p = .drop then loopIndex n else 0 }

/-- The identity permutation is such a memory. -/
theorem identity_permutation : ∃ m : Memory, m.wf ∧ m.Holds id :=
  ⟨identityMemory Config.stateSize, identityMemory_wf (Nat.le_refl _), identityMemory_holds⟩

/-- The reset state with host moves meets the invariant. -/
theorem reset_inv (moves : List HostMove) : (State.reset.withHost moves).Inv where
  canonicalS := by show Memory.wf []; decide
  canonicalK := by show Memory.wf []; decide
  klenBound := by show (0 : BitVec 18).toNat ≤ _; decide
  truncFull h := by cases h
  causeInError := ⟨fun h => absurd rfl h, fun h => by cases h⟩
  cntRange := by show (0 : BitVec 20).toNat < Phase.steps .keyload; decide
  keyWritten a ha := absurd (show a < keyWordCount 0 from ha) (by simp [keyWordCount])
  oddPadded h := absurd (show firstOfPair 0 = false from h) (by decide)
  keyed h _ := absurd rfl h
  indexZero _ := rfl
  accumulatorZero _ := rfl
  indexCounts h := by cases h
  filled h := by cases h
  permuted h := by rcases h with h | h | h <;> cases h

section Witnesses

variable {m : Memory} (hw : m.wf) (hm : m.Holds id)

include hw hm

/-- The keyed state meets the invariant in every phase but ERROR, for every count of the phase. -/
theorem keyedIn_inv (p : Phase) (n : BitVec 20) (hp : p ≠ .error) (hn : n.toNat < p.steps) : (keyedIn m p n).Inv where
  canonicalS := hw
  canonicalK := by show Memory.wf [(0, 0xAB00)]; decide
  klenBound := by show (1 : BitVec 18).toNat ≤ _; decide
  truncFull h := by cases h
  causeInError := ⟨fun h => absurd rfl h, fun h => absurd h hp⟩
  cntRange := hn
  keyWritten a ha := by
    have : a = 0 := by have h : a < keyWordCount 1 := ha; simp [keyWordCount] at h; exact h
    exact ⟨0xAB00, by subst this; rfl⟩
  oddPadded _ := ⟨0xAB, by show Memory.read? [(0, 0xAB00)] (keyByteIndex 1) = some (pair 0xAB 0); decide⟩
  keyed _ _ := by show 1 ≤ (1 : BitVec 18).toNat; decide
  indexZero h := by
    have : p ≠ .drop := by rcases h with h | h | h <;> rw [show p = _ from h] <;> decide
    exact if_neg this
  accumulatorZero _ := rfl
  indexCounts h := if_pos h
  filled h a ha := by
    have hp' : p = .fill := h
    subst hp'
    have hlt : a < Config.stateSize := Nat.lt_trans ha hn
    have := hm (BitVec.ofNat 16 a)
    simp only [BitVec.toNat_ofNat, id_eq] at this
    rw [Nat.mod_eq_of_lt (by simpa [Config.stateSize] using hlt)] at this
    exact this
  permuted _ := hm.isPermutation Function.bijective_id

omit hw

/-- One generator step on the identity. -/
theorem prga_on_identity (p : Phase) (n : BitVec 20) : ∃ u w, uPRGA (keyedIn m p n) = .ok (u, w) := by
  have hs := Memory.Holds.swap hm (add16 (keyedIn m p n).i 1) (add16 (add16 (keyedIn m p n).i 1) (keyedIn m p n).j)
  exact ⟨_, _, uPRGA_ok_iff.mpr ⟨_, _, hm _, hm _, hs.2 _, rfl⟩⟩

/-- One key-schedule step on the identity. -/
theorem ksa_on_identity (n : BitVec 20) : ∃ u, uKSA (keyedIn m .ksa n) = .ok u := by
  have hz : (loopIndex n).toNat % keyWordCount 1 = 0 := by simp [keyWordCount, Nat.mod_one]
  exact ⟨_, uKSA_ok_iff.mpr ⟨_, 0xAB00, _, by show keyWordCount 1 ≠ 0; decide, hm _,
    by show (loopIndex n).toNat % keyWordCount 1 < _; rw [hz]; decide,
    by show Memory.read? [(0, 0xAB00)] ((loopIndex n).toNat % keyWordCount 1) = _; rw [hz]; rfl, hm _, rfl⟩⟩

omit hm

/-- No host move: the core waits for nothing but itself. -/
theorem keyedIn_waits (p : Phase) (n : BitVec 20) : (keyedIn m p n).Waits [] := .inl ⟨rfl, rfl, rfl⟩

include hw hm

/-- A response with a byte other than 0: CRYPT 0x41 in READY on the identity permutation, where `W` = 2 (G1). -/
theorem crypt_on_identity : ∃ (s t : State) (r : Word), s.Inv ∧ s.phase = .ready ∧ s.host = [.command 0x4041] ∧
    step s = .next t ∧ t.responses = s.responses ++ [r] ∧ r = 0x0441 := by
  have hinv := keyedIn_inv hw hm .ready 0 (by decide) (by decide)
  have hs : ((m.write 1 1).write 1 1) = m := by
    rw [Memory.write_read? (a := 1) (w := 1) hw (hm 1), Memory.write_read? (a := 1) (w := 1) hw (hm 1)]
  let s : State := { keyedIn m .ready 0 with host := [.command 0x4041] }
  have hu : uPRGA (s.withHost []) = .ok ({ s with S := (m.write 1 1).write 1 1, i := 1, j := 1, host := [] }, 2) :=
    uPRGA_ok_iff.mpr ⟨1, 1, hm 1, hm 1, by rw [show add16 1 1 = 2 by decide]; exact (congrArg (·.read? 2) hs).trans (hm 2), rfl⟩
  have hr : responseWord ((0 : BitVec 4) ++ BitVec.ofBool false ++ (4 : BitVec 3)) (uXOR 0x41 (uEXTRACT 2)) = 0x0441 := by decide
  exact ⟨s, _, _, ⟨hinv.1, hinv.2, hinv.3, hinv.4, hinv.5, hinv.6, hinv.7, hinv.8, hinv.9, hinv.10, hinv.11, hinv.12,
    hinv.13, hinv.14⟩, rfl, rfl,
    step_of_case (.crypt 0x4041 [] 0x41 rfl rfl rfl (encryptByte_ok_iff.mpr ⟨_, _, hu, rfl⟩)), rfl, hr⟩

/-- The last step of FILL, of KSA and of DROP. -/
theorem last_steps :
    (∃ s t, s.Inv ∧ s.phase = .fill ∧ s.cnt = 65535 ∧ s.resetPending = false ∧ step s = .next t ∧ t.phase = .ksa) ∧
    (∃ s t, s.Inv ∧ s.phase = .ksa ∧ s.cnt = 65535 ∧ s.S.IsPermutation ∧ step s = .next t ∧ t.phase = .drop) ∧
    (∃ s t, s.Inv ∧ s.phase = .drop ∧ s.cnt = 786431 ∧ s.S.IsPermutation ∧ step s = .next t ∧ t.phase = .ready ∧
      t.responses = s.responses ++ [responseWord t.status 0]) := by
  have hperm := hm.isPermutation Function.bijective_id
  refine ⟨⟨keyedIn m .fill 65535, _, keyedIn_inv hw hm .fill 65535 (by decide) (by decide), rfl, rfl, rfl,
    step_of_case (.fill [] rfl (keyedIn_waits _ _) rfl), rfl⟩, ?_, ?_⟩
  · obtain ⟨u, hu⟩ := ksa_on_identity hm 65535
    refine ⟨keyedIn m .ksa 65535, u, keyedIn_inv hw hm .ksa 65535 (by decide) (by decide), rfl, rfl, hperm,
      step_of_case (.ksa [] rfl (keyedIn_waits _ _) hu), ?_⟩
    obtain ⟨a, k, b, -, -, -, -, -, rfl⟩ := uKSA_ok_iff.mp hu
    rfl
  · obtain ⟨u, w, hu⟩ := prga_on_identity hm .drop 786431
    refine ⟨keyedIn m .drop 786431, _, keyedIn_inv hw hm .drop 786431 (by decide) (by decide), rfl, rfl, hperm,
      step_of_case (.drop [] rfl (keyedIn_waits _ _) u w hu rfl), ?_⟩
    obtain ⟨a, b, -, -, -, rfl⟩ := uPRGA_ok_iff.mp hu
    exact ⟨rfl, rfl⟩

end Witnesses

/-! ### Witnesses: concrete states and operands that meet the hypotheses of each statement together -/

theorem witness_ExtractTakesTheMiddleByte :
    (∀ n, 4 ≤ n → n ≤ 11 → (0x1234 : Word).getLsbD n = (0xA23F : Word).getLsbD n) ∧ extract 0xA23F = 0x23 := by
  refine ⟨fun n h1 h2 => ?_, by decide⟩
  interval_cases n <;> decide

theorem witness_XorCombinesBytesAndUndoesItself : 7 < 8 ∧ (xorByte 0x80 0x00).getLsbD 7 = true := by decide

theorem witness_CyclicIndexIsTheGuardedRemainder :
    (1 ≤ 1 ∧ 1 ≤ 65536 ∧ cyclicIndex 65535 1 = some 0) ∧
    (1 ≤ 65536 ∧ 65536 ≤ 65536 ∧ cyclicIndex 65535 65536 = some 65535) := by decide

theorem witness_EveryResponseCarriesOneOfTenStatuses :
    (∃ (s t : State) (r : Word), s.Inv ∧ step s = .next t ∧ t.responses = s.responses ++ [r] ∧ responseDout r ≠ 0) ∧
    (∃ (s t : State) (r : Word), s.Inv ∧ step s = .next t ∧ t.responses = s.responses ++ [r] ∧ responseDout r = 0) := by
  obtain ⟨m, hw, hm⟩ := identity_permutation
  obtain ⟨s, t, r, h1, -, -, h2, h3, rfl⟩ := crypt_on_identity hw hm
  exact ⟨⟨s, t, _, h1, h2, h3, by decide⟩, _, _, 0, reset_inv [.command 0x5000], rfl, rfl, by decide⟩

theorem witness_EveryCommandGetsExactlyOneResponse :
    (∃ s t, step s = .next t ∧ s.taken ≠ none ∧ t.phase ≠ .fill) ∧
    (∃ s t, step s = .next t ∧ s.phase = .drop ∧ t.phase = .ready) ∧
    (∃ s t, step s = .next t ∧ s.taken ≠ none ∧ t.phase = .fill) := by
  obtain ⟨m, hw, hm⟩ := identity_permutation
  obtain ⟨-, -, s, t, -, h1, -, -, h2, h3, -⟩ := last_steps hw hm
  exact ⟨⟨driven .reset [0x5000], _, rfl, by decide, by decide⟩, ⟨s, t, h2, h1, h3⟩,
    driven { State.reset with K := [(0, 0xAB00)], klen := 1 } [0x3000], _, rfl, by decide, by decide⟩

theorem witness_SwapExchangesTwoWords :
    Memory.read? [(0, 7), (65535, 9)] (0 : Word).toNat = some 7 ∧
    Memory.read? [(0, 7), (65535, 9)] (65535 : Word).toNat = some 9 ∧ Memory.wf [(0, 7), (65535, 9)] := by decide

theorem witness_CanonicalMemoriesThatReadAlikeAreEqual :
    ∃ m n : Memory, m ≠ [] ∧ m.wf ∧ n.wf ∧ ∀ a : Nat, m.read? a = n.read? a :=
  ⟨[(0, 7), (65535, 9)], [(0, 7), (65535, 9)], by decide, by decide, by decide, fun _ => rfl⟩

theorem witness_LegalWordsAreTheWordsOfTheTable :
    (opcodeRow (.keyb 0)).selects 0x20FF = true ∧ (opcodeRow (.keyb 1)).selects 0x20FF = true ∧ legal 0x20FF = true := by
  decide

theorem witness_DecodeInvertsEncode : (Instr.crypt 0xFF).wf = true ∧ decode 0x40FF = .ok (.crypt 0xFF) := ⟨rfl, rfl⟩

theorem witness_EveryStepKeepsTheInvariant :
    (∃ s t, s.Inv ∧ s.phase = .fill ∧ step s = .next t) ∧ (∃ s t, s.Inv ∧ s.phase = .ksa ∧ step s = .next t) ∧
    (∃ s t, s.Inv ∧ s.phase = .drop ∧ step s = .next t) ∧ (∃ s t, s.Inv ∧ s.phase = .ready ∧ step s = .next t) := by
  obtain ⟨m, hw, hm⟩ := identity_permutation
  obtain ⟨⟨s1, t1, a1, b1, -, -, c1, -⟩, ⟨s2, t2, a2, b2, -, -, c2, -⟩, s3, t3, a3, b3, -, -, c3, -⟩ := last_steps hw hm
  obtain ⟨s, t, -, h1, h2, -, h3, -⟩ := crypt_on_identity hw hm
  exact ⟨⟨s1, t1, a1, b1, c1⟩, ⟨s2, t2, a2, b2, c2⟩, ⟨s3, t3, a3, b3, c3⟩, s, t, h1, h2, h3⟩

theorem witness_NoStepStopsInsideTheInvariant : ∃ s : State, s.Inv ∧ s.phase = .ksa ∧ s.cnt = 65535 := by
  obtain ⟨m, hw, hm⟩ := identity_permutation
  exact ⟨_, keyedIn_inv hw hm .ksa 65535 (by decide) (by decide), rfl, rfl⟩

theorem witness_PermutationHoldsFromFillToReset :
    (∃ s t, s.Inv ∧ s.phase = .fill ∧ step s = .next t ∧ t.phase = .ksa) ∧
    (∃ s t, s.phase = .ksa ∧ s.S.IsPermutation ∧ step s = .next t ∧ t.phase ≠ .keyload) ∧
    (∃ s t, s.phase = .drop ∧ s.S.IsPermutation ∧ step s = .next t ∧ t.phase ≠ .keyload) ∧
    (∃ s t, s.phase = .ready ∧ s.S.IsPermutation ∧ step s = .next t ∧ t.phase ≠ .keyload) ∧
    (∃ s t, s.phase = .error ∧ s.S.IsPermutation ∧ step s = .next t ∧ t.phase ≠ .keyload) := by
  obtain ⟨m, hw, hm⟩ := identity_permutation
  have hp := hm.isPermutation Function.bijective_id
  obtain ⟨⟨s1, t1, a1, b1, -, -, c1, d1⟩, ⟨s2, t2, -, b2, -, e2, c2, d2⟩, s3, t3, -, b3, -, e3, c3, d3, -⟩ := last_steps hw hm
  exact ⟨⟨s1, t1, a1, b1, c1, d1⟩, ⟨s2, t2, b2, e2, c2, by rw [d2]; decide⟩, ⟨s3, t3, b3, e3, c3, by rw [d3]; decide⟩,
    ⟨keyedIn m .ready 0, _, rfl, hp, rfl, by show Phase.ready ≠ _; decide⟩,
    keyedIn m .error 0, _, rfl, hp, rfl, by show Phase.error ≠ _; decide⟩

theorem witness_StepRunsTheDecodedCommand :
    (driven .reset [0x2041]).phase.accepting = true ∧ (driven .reset [0x2041]).host = .command 0x2041 :: [] ∧
    decode 0x2041 = .ok (.keyb 0x41) := ⟨rfl, rfl, rfl⟩

theorem witness_BusyCoreTakesNoCommand :
    ∃ s t, s.busy = true ∧ s.resetPending = false ∧ s.host = [.command 0x5000] ∧ step s = .next t :=
  ⟨{ driven .reset [0x5000] with phase := .fill }, _, rfl, rfl, rfl, rfl⟩

theorem witness_IdleCoreKeepsItsState : State.reset.phase.accepting = true ∧ State.reset.host = [] := ⟨rfl, rfl⟩

theorem witness_HardResetStrikesInEveryPhase :
    ∃ s : State, s.phase = .drop ∧ s.host = .hardReset 0 :: [.command 0x5000] :=
  ⟨{ State.reset with phase := .drop, host := .hardReset 0 :: [.command 0x5000] }, rfl, rfl⟩

theorem witness_PendingHardResetOnlyCountsDown :
    ∃ s t : State, s.host = .hardReset (0 + 1) :: [] ∧ step (s.withHost []) = .next t ∧ t.cnt = 1 :=
  ⟨{ State.reset with phase := .fill, host := .hardReset 1 :: [] }, _, rfl, rfl, by decide⟩

/-- A step for each row of the table: the last step of each transient phase and one before it, the commands, and the errors. -/
theorem witness_SequencerMakesOnlyTheTabledTransitions :
    (∃ s t, s.phase = .fill ∧ s.cnt = 65534 ∧ step s = .next t ∧ t.phase = .fill ∧ t.cnt = 65535) ∧
    (∃ s t, s.phase = .fill ∧ s.cnt = 65535 ∧ step s = .next t ∧ t.phase = .ksa) ∧
    (∃ s t, s.phase = .ksa ∧ s.cnt = 65535 ∧ step s = .next t ∧ t.phase = .drop) ∧
    (∃ s t, s.phase = .drop ∧ s.cnt = 786431 ∧ step s = .next t ∧ t.phase = .ready) ∧
    (∃ s t, s.phase = .ready ∧ step s = .next t ∧ t.phase = .keyload) ∧
    (∃ s t, s.phase = .keyload ∧ step s = .next t ∧ t.phase = .fill) ∧
    (∃ s t, s.phase = .keyload ∧ step s = .next t ∧ t.phase = .keyload ∧ t.klen = 1) ∧
    (∃ s t, s.phase = .error ∧ step s = .next t ∧ t.phase = .error ∧ t.responses = [0x1700]) := by
  obtain ⟨m, hw, hm⟩ := identity_permutation
  obtain ⟨⟨s1, t1, -, b1, n1, -, c1, d1⟩, ⟨s2, t2, -, b2, n2, -, c2, d2⟩, s3, t3, -, b3, n3, -, c3, d3, -⟩ := last_steps hw hm
  exact ⟨⟨{ State.reset with phase := .fill, cnt := 65534 }, _, rfl, rfl, rfl, by decide, by decide⟩,
    ⟨s1, t1, b1, n1, c1, d1⟩, ⟨s2, t2, b2, n2, c2, d2⟩, ⟨s3, t3, b3, n3, c3, d3⟩,
    ⟨{ driven .reset [0x1000] with phase := .ready }, _, rfl, rfl, rfl⟩,
    ⟨driven (loaded 1 [(0, 0xAB00)]) [0x3000], _, rfl, rfl, rfl⟩, ⟨driven .reset [0x20AB], _, rfl, rfl, rfl, by decide⟩,
    driven dead [0x4041], _, rfl, rfl, rfl, by decide⟩

/-- The four errors of the table, each with its cause. -/
theorem witness_SequencerMakesOnlyTheTabledTransitions_errors :
    (∃ t, step (driven .reset [0x3000]) = .next t ∧ t.phase = .error ∧ t.ecode = .keyScheduleError) ∧
    (∃ t, step (driven .reset [0x4141]) = .next t ∧ t.phase = .error ∧ t.ecode = .illegalCommand) ∧
    (∃ t, step (driven .reset [0x4041]) = .next t ∧ t.phase = .error ∧ t.ecode = .sequenceError) ∧
    (∃ s t, s.phase = .ready ∧ s.host = [.command 0x3000] ∧ step s = .next t ∧ t.phase = .error ∧
      t.ecode = .sequenceError) :=
  ⟨⟨_, rfl, rfl, rfl⟩, ⟨_, rfl, rfl, rfl⟩, ⟨_, rfl, rfl, rfl⟩,
    { driven .reset [0x3000] with phase := .ready }, _, rfl, rfl, rfl, rfl, rfl⟩

/-- For every piece of state a step that changes it. -/
theorem witness_StateIsWrittenOnlyAsTheAccessTableSays :
    (∃ s t, step s = .next t ∧ t.S ≠ s.S ∧ t.cnt ≠ s.cnt) ∧ (∃ s t, step s = .next t ∧ t.K ≠ s.K ∧ t.klen ≠ s.klen) ∧
    (∃ s t, step s = .next t ∧ t.ktrunc ≠ s.ktrunc) ∧ (∃ s t, step s = .next t ∧ t.ecode ≠ s.ecode ∧ t.phase ≠ s.phase) ∧
    (∃ s t, step s = .next t ∧ s.phase = .fill ∧ s.cnt = 65535 ∧ t.j ≠ s.j) ∧
    (∃ s t, step s = .next t ∧ s.phase = .ksa ∧ s.cnt = 65535 ∧ t.i ≠ s.i ∧ t.j ≠ s.j) :=
  ⟨⟨{ State.reset with phase := .fill }, _, rfl, by decide, by decide⟩, ⟨driven .reset [0x20AB], _, rfl, by decide, by decide⟩,
    ⟨driven (loaded 131072 []) [0x20AB], _, rfl, by decide⟩, ⟨driven .reset [0x0000], _, rfl, by decide, by decide⟩,
    ⟨{ State.reset with phase := .fill, cnt := 65535, j := 1 }, _, rfl, rfl, rfl, by decide⟩,
    { loaded 2 [(0, 1)] with phase := .ksa, cnt := 65535, i := 1, j := 65535, S := [(0, 1), (65535, 0)] }, _, rfl, rfl, rfl,
      by decide, by decide⟩

theorem witness_StepsReachWhatTheTransactionLeaves :
    (State.reset.withHost [.command 0x20AB, .command 0x3000]).Inv ∧ State.reset.phase.accepting = true ∧
    (State.reset.withHost [.command 0x3000]).resetPending = false := ⟨reset_inv _, rfl, rfl⟩

theorem witness_IllegalWordRaisesIllegalCommand :
    (driven .reset [0x4141]).phase = .keyload ∧ (driven .reset [0x4141]).host = .command 0x4141 :: [] ∧
    legal 0x4141 = false ∧ { driven .reset [0x4141] with phase := .ready }.phase = .ready := by decide

theorem witness_MisplacedCommandRaisesSequenceError :
    ∃ s s' : State, s.phase = .ready ∧ s'.phase = .keyload := ⟨{ State.reset with phase := .ready }, .reset, rfl, rfl⟩

theorem witness_EmptyKeyAloneRaisesKeyScheduleError :
    (driven .reset [0x3000]).phase = .keyload ∧ (driven .reset [0x3000]).klen = 0 ∧
    ∃ t, step (driven .reset [0x3000]) = .next t ∧ (driven .reset [0x3000]).ecode ≠ .keyScheduleError ∧
      t.ecode = .keyScheduleError ∧ 1 ≤ (1 : BitVec 18).toNat := ⟨rfl, rfl, _, rfl, by decide, rfl, by decide⟩

theorem witness_ErrorEntryWritesOnlyCauseAndPhase :
    ∃ t, step (driven .reset [0x4041]) = .next t ∧ (driven .reset [0x4041]).phase ≠ .error ∧ t.phase = .error :=
  ⟨_, rfl, by decide, rfl⟩

theorem witness_ErrorPhaseIsSticky :
    (∃ s : State, s.phase = .error ∧ s.host = .command 0x1001 :: [] ∧ (0x1001 : Word) ≠ 0x1000) ∧
    (∃ s : State, s.phase = .error ∧ s.host = .command 0x1000 :: []) :=
  ⟨⟨{ driven .reset [0x1001] with phase := .error, ecode := .illegalCommand }, rfl, rfl, by decide⟩,
    { driven .reset [0x1000] with phase := .error, ecode := .illegalCommand }, rfl, rfl⟩

theorem witness_ErrorIsLeftOnlyByReset :
    (∃ s t, s.phase = .error ∧ s.host = [.command 0x1000] ∧ step s = .next t ∧ t.phase ≠ .error) ∧
    (∃ s t, s.phase = .error ∧ s.host = [.hardReset 0] ∧ step s = .next t ∧ t.phase ≠ .error) :=
  ⟨⟨{ driven .reset [0x1000] with phase := .error }, _, rfl, rfl, rfl, by decide⟩,
    { State.reset with phase := .error, host := [.hardReset 0] }, _, rfl, rfl, rfl, by decide⟩

theorem witness_RstResetsEveryRegister_and_StatAnswersAndWritesNothing :
    Phase.keyload.accepting = true ∧ Phase.ready.accepting = true ∧ Phase.error.accepting = true := by decide

theorem witness_InsertedStatChangesNoOtherResponse :
    ∃ s t : State, s.phase.accepting = true ∧ s.host = .command (encode .stat) :: [.command 0x2000] ∧
      runSteps 1 (s.withHost [.command 0x2000]) = .next t := ⟨driven .reset [0x5000, 0x2000], _, rfl, rfl, rfl⟩

/-- One state for each clause, at the boundary of its range: `KLEN` = 131070, 131071 and 131072. -/
theorem witness_KeybStoresOneKeyByte :
    (∃ s : State, s.phase = .keyload ∧ s.klen.toNat < 131072 ∧ s.klen.toNat % 2 = 0 ∧ s.klen = 131070) ∧
    (∃ s : State, s.phase = .keyload ∧ s.klen.toNat < 131072 ∧ s.klen.toNat % 2 = 1 ∧ s.klen = 131071 ∧
      s.K.read? (s.klen.toNat / 2) = some 0xAB00) ∧
    (∃ s : State, s.phase = .keyload ∧ s.klen.toNat = 131072) :=
  ⟨⟨{ State.reset with klen := 131070 }, by decide⟩,
    ⟨{ State.reset with klen := 131071, K := [(65535, 0xAB00)] }, by decide⟩, { State.reset with klen := 131072 }, by decide⟩

theorem witness_KeybFrame :
    (∃ s t : State, s.phase = .keyload ∧ s.klen.toNat ≠ 131072 ∧ exec (.keyb 0xAB) s = .next t) ∧
    (∃ s t : State, s.phase = .keyload ∧ s.klen.toNat = 131072 ∧ exec (.keyb 0xAB) s = .next t) :=
  ⟨⟨.reset, _, rfl, by decide, rfl⟩, { State.reset with klen := 131072 }, _, rfl, by decide, rfl⟩

theorem witness_KeyCommandsLoadTheKeyWords :
    (∀ c ∈ [Instr.keyb 0xAB, .stat], c = .stat ∨ ∃ d, c = .keyb d) ∧
    [0xAB] = [Instr.keyb 0xAB, .stat].filterMap Instr.keyByte? := by simp [Instr.keyByte?]

theorem witness_OddKeyEqualsKeyWithZeroAppended :
    ([] : List Byte).length % 2 = 0 ∧ ([1, 2] : List Byte).length % 2 = 0 ∧ ([0xAB] : List Byte).length % 2 = 1 := by decide

theorem witness_SchedStartsTheFill : ∃ s : State, s.phase = .keyload ∧ s.klen ≠ 0 :=
  ⟨{ State.reset with klen := 1 }, rfl, by decide⟩

/-- Both ends of the phase. -/
theorem witness_FillWritesTheIdentity :
    (∃ s : State, s.phase = .fill ∧ s.cnt = 0 ∧ s.resetPending = false) ∧
    (∃ s : State, s.phase = .fill ∧ s.cnt = 65535 ∧ s.resetPending = false) :=
  ⟨⟨{ State.reset with phase := .fill }, rfl, rfl, rfl⟩, { State.reset with phase := .fill, cnt := 65535 }, rfl, rfl, rfl⟩

/-- KS2's first row, and KS1's last. -/
theorem witness_KsaStepAddsAndSwaps :
    (∃ s : State, s.phase = .ksa ∧ s.resetPending = false ∧ s.cnt = 0 ∧ 1 ≤ keyWordCount s.klen ∧ keyWordCount s.klen ≤ 65536 ∧
      s.S.read? (loopIndex s.cnt).toNat = some 0 ∧ s.K.read? ((loopIndex s.cnt).toNat % keyWordCount s.klen) = some 0xAB00 ∧
      s.S.read? (add16Three s.j 0 0xAB00).toNat = some 0xAB00) ∧
    (∃ s : State, s.phase = .ksa ∧ s.resetPending = false ∧ s.cnt = 65535 ∧ 1 ≤ keyWordCount s.klen ∧
      keyWordCount s.klen ≤ 65536 ∧ s.S.read? (loopIndex s.cnt).toNat = some 0 ∧
      s.K.read? ((loopIndex s.cnt).toNat % keyWordCount s.klen) = some 1 ∧ s.S.read? (add16Three s.j 0 1).toNat = some 1) :=
  ⟨⟨{ State.reset with phase := .ksa, klen := 1, K := [(0, 0xAB00)], S := [(0, 0), (0xAB00, 0xAB00)] }, by decide⟩,
    { State.reset with phase := .ksa, cnt := 65535, j := 65535, klen := 2, K := [(0, 1)], S := [(0, 1), (65535, 0)] }, by decide⟩

theorem witness_FillAndKsaComputeTheKeySchedule :
    ∃ (s : State) (words : List Word), s.phase = .fill ∧ s.cnt = 0 ∧ s.resetPending = false ∧ 1 ≤ s.klen.toNat ∧
      s.klen.toNat ≤ 131072 ∧ words.length = keyWordCount s.klen ∧ s.K.HoldsWords words :=
  ⟨{ State.reset with phase := .fill, klen := 3, K := [(0, 0x0102), (1, 0x0300)] }, [0x0102, 0x0300], rfl, rfl, rfl,
    by decide, by decide, by decide, by unfold Memory.HoldsWords; decide⟩

theorem witness_SchedRunsTheCoreToReady :
    ∃ (s : State) (words : List Word) (rest : List HostMove), s.phase = .keyload ∧
      s.host = .command (encode .sched) :: rest ∧ (s.withHost rest).resetPending = false ∧ 1 ≤ s.klen.toNat ∧
      s.klen.toNat ≤ 131072 ∧ words.length = keyWordCount s.klen ∧ s.K.HoldsWords words :=
  ⟨{ driven .reset [0x3000, 0x4041] with klen := 3, K := [(0, 0x0102), (1, 0x0300)] }, [0x0102, 0x0300], [.command 0x4041],
    rfl, rfl, rfl, by decide, by decide, by decide, by unfold Memory.HoldsWords; decide⟩

theorem witness_PrgaStepFollowsTheGenerator :
    ∃ (s : State) (g : Generator), s.S.Holds g.table ∧ s.i = g.i ∧ s.j = g.j := by
  obtain ⟨m, -, hm⟩ := identity_permutation
  exact ⟨keyedIn m .ready 0, Generator.start id, hm, rfl, rfl⟩

theorem witness_DropDiscards786432Steps :
    ∃ (s : State) (f : Table), s.phase = .drop ∧ s.cnt = 0 ∧ s.i = 0 ∧ s.j = 0 ∧ s.S.Holds f ∧ s.resetPending = false := by
  obtain ⟨m, -, hm⟩ := identity_permutation
  exact ⟨keyedIn m .drop 0, id, rfl, rfl, by show loopIndex 0 = 0; decide, rfl, hm, rfl⟩

theorem witness_BusyCoreReachesReady :
    (∃ s : State, s.Inv ∧ s.busy = true ∧ s.resetPending = false ∧ s.phase = .fill ∧ s.cnt = 0) ∧
    (∃ s : State, s.Inv ∧ s.busy = true ∧ s.resetPending = false ∧ s.phase = .drop ∧ s.cnt = 786431) := by
  obtain ⟨m, hw, hm⟩ := identity_permutation
  exact ⟨⟨_, keyedIn_inv hw hm .fill 0 (by decide) (by decide), rfl, rfl, rfl, rfl⟩,
    _, keyedIn_inv hw hm .drop 786431 (by decide) (by decide), rfl, rfl, rfl, rfl⟩

theorem witness_CryptMakesOneStepAndAnswersTheByte : ∃ (s : State) (f : Table), s.phase = .ready ∧ s.S.Holds f := by
  obtain ⟨m, -, hm⟩ := identity_permutation
  exact ⟨keyedIn m .ready 0, id, rfl, hm⟩

/-- P1's first CRYPT, on the words of `S` it touches. -/
theorem witness_CryptFrame_and_CryptStateIgnoresTheData :
    ∃ s t : State, s.phase = .ready ∧ exec (.crypt 0x41) s = .next t ∧ t.responses = [0x0402] :=
  ⟨{ State.reset with phase := .ready, j := 0x5D61, S := [(1, 0x2FBE), (0x2FA3, 0xB43E), (0x8D1F, 0xFFE5)] }, _, rfl, rfl,
    by decide⟩

theorem witness_SessionOutputIsDataXorKeystream_and_SessionTwiceGivesTheDataBack :
    State.reset.phase.accepting = true ∧ ([0x00, 0x01] : List Byte) ≠ [] := ⟨rfl, by decide⟩

end Sys2Proof.Tests
end

section
/-! PROOFS. The arithmetic of the core (spec/00_scope.md rules R9 to R13, spec/10_state.md rule R25, spec/43_cipher_stream.md
rule R80). First one rule for each function of `Machine/Operands.lean` that `Laws/Arithmetic.lean` does not yet give, then the
statements. -/

namespace Sys2Proof.Machine

/-! ### Rules for the functions -/

/-- The value of the two-operand sum. -/
theorem add16_toNat (a b : Word) : (add16 a b).toNat = (a.toNat + b.toNat) % 65536 := by
  rw [add16_eq_add]; exact BitVec.toNat_add a b

/-- Reducing the exact three-operand sum once is reducing after each addition. -/
theorem add16Three_eq_add16_add16 (a b c : Word) : add16Three a b c = add16 (add16 a b) c := by
  rw [add16Three_eq_add, add16_eq_add, add16_eq_add]

/-- The value of the three-operand sum. -/
theorem add16Three_toNat (a b c : Word) : (add16Three a b c).toNat = (a.toNat + b.toNat + c.toNat) % 65536 := by
  rw [add16Three_eq_add16_add16, add16_toNat, add16_toNat, Nat.mod_add_mod]

/-- The three-operand sum needs 18 bits before it is reduced: its greatest value is 3 * 65535. -/
theorem three_words_sum_le (a b c : Word) : a.toNat + b.toNat + c.toNat ≤ 196605 := by
  have ha := a.isLt
  have hb := b.isLt
  have hc := c.isLt
  omega

/-- `extract` as arithmetic on the value of the word: the shift divides by 16, the mask keeps eight bits. -/
theorem extract_toNat (w : Word) : (extract w).toNat = (w.toNat / 16) &&& 0xFF := by
  have hmask (x : Nat) : x &&& 255 = x % 256 := Nat.and_two_pow_sub_one_eq_mod x 8
  simp [extract, Config.extractShift, Config.extractMask, Nat.shiftRight_eq_div_pow, hmask]

/-- `extract` is the field `W[11:4]`: both have the value `W / 16` modulo 256. -/
theorem extract_eq_field (w : Word) : extract w = w.extractLsb' 4 8 := by
  apply BitVec.eq_of_toNat_eq
  calc (extract w).toNat = (w.toNat / 16) &&& (2 ^ 8 - 1) := extract_toNat w
    _ = w.toNat / 2 ^ 4 % 2 ^ 8 := Nat.and_two_pow_sub_one_eq_mod _ 8
    _ = (w.extractLsb' 4 8).toNat := by rw [BitVec.extractLsb'_toNat, Nat.shiftRight_eq_div_pow]

/-- Bit `n` of the extracted byte is bit `4 + n` of the word. -/
theorem extract_bit (w : Word) {n : Nat} (h : n < 8) : (extract w).getLsbD n = w.getLsbD (4 + n) := by
  rw [extract_eq_field, BitVec.getLsbD_extractLsb']; simp [h]

/-- Only bits 11..4 of the word reach the extracted byte. -/
theorem extract_congr {v w : Word} (h : ∀ n, 4 ≤ n → n ≤ 11 → v.getLsbD n = w.getLsbD n) : extract v = extract w := by
  apply BitVec.eq_of_getLsbD_eq
  intro n hn
  rw [extract_bit v hn, extract_bit w hn]
  exact h (4 + n) (by omega) (by omega)

/-- A bit of the XOR of two bytes. -/
theorem xorByte_bit (a b : Byte) (n : Nat) : (xorByte a b).getLsbD n = (a.getLsbD n != b.getLsbD n) :=
  BitVec.getLsbD_xor

/-- XOR with the same byte twice gives the byte back. -/
theorem xorByte_xorByte_self (a b : Byte) : xorByte (xorByte a b) b = a := by
  simp only [xorByte, BitVec.xor_assoc, BitVec.xor_self, BitVec.xor_zero]

/-- The input byte 0x00 gives the keystream byte itself. -/
theorem uXOR_zero (ks : Byte) : uXOR 0x00 ks = ks := BitVec.zero_xor

/-- An input byte equal to the keystream byte gives 0x00. -/
theorem uXOR_self (ks : Byte) : uXOR ks ks = 0x00 := BitVec.xor_self

/-- The input byte 0xFF gives the complement of the keystream byte. -/
theorem uXOR_ones (ks : Byte) : uXOR 0xFF ks = ~~~ks := BitVec.allOnes_xor

/-- `pair` is rule R13's formula: bits 7..0 of both sides come from `l`, the bits above from `h`. -/
theorem pair_eq_shift_or (h l : Byte) : pair h l = (h.setWidth 16 <<< 8) ||| l.setWidth 16 := by
  apply BitVec.eq_of_getLsbD_eq
  intro n hn
  have hbit : (pair h l).getLsbD n = if n < 8 then l.getLsbD n else h.getLsbD (n - 8) := append_bit h l n
  rw [hbit]
  by_cases hlow : n < 8
  · simp [hlow, hn]
  · have hl : l.getLsbD n = false := BitVec.getLsbD_of_ge l n (by omega)
    simp [hlow, hn, hl]

/-- The remainder by 0 has no value. -/
theorem cyclicIndex_zero (x : Word) : cyclicIndex x 0 = none := rfl

/-- The remainder of a word by 65536 is the word. -/
theorem cyclicIndex_stateSize (x : Word) : cyclicIndex x 65536 = some x.toNat := by
  rw [cyclicIndex_pos (by omega), Nat.mod_eq_of_lt x.isLt]

/-- The key word count is half the key byte count, rounded up. -/
theorem keyWordCount_bounds (k : BitVec 18) : k.toNat ≤ 2 * keyWordCount k ∧ 2 * keyWordCount k ≤ k.toNat + 1 := by
  unfold keyWordCount; omega

/-! ### The statements -/

/-- Settles O1: the two sums have the values of rule R9, the mask 0xFFFF is the remainder by 2 ^ 16, and the corners are
evaluated. -/
theorem addSixteenIsTheSumModulo65536 : Obligations.AddSixteenIsTheSumModulo65536 := by
  refine ⟨fun a b => ⟨add16_toNat a b, ?_⟩, fun a b c => ⟨add16Three_toNat a b c, three_words_sum_le a b c,
    add16Three_eq_add16_add16 a b c⟩, by decide, by decide⟩
  rw [add16_toNat]
  exact (Nat.and_two_pow_sub_one_eq_mod _ 16).symm

/-- Settles O2: rule R10's formula, its field, the bits it depends on, and the five worked values evaluated. -/
theorem extractTakesTheMiddleByte : Obligations.ExtractTakesTheMiddleByte :=
  ⟨fun w => ⟨extract_toNat w, extract_eq_field w⟩, fun _ _ => extract_congr, by decide⟩

/-- Settles O3: the bits of the XOR, its self-inverse, and rule R80's corners of uXOR. -/
theorem xorCombinesBytesAndUndoesItself : Obligations.XorCombinesBytesAndUndoesItself :=
  ⟨fun a b n _ => xorByte_bit a b n, xorByte_xorByte_self, fun _ _ => rfl,
    fun ks => ⟨uXOR_zero ks, uXOR_self ks, uXOR_ones ks⟩, by decide⟩

/-- Settles O4: rule R13's formula and the two fields. -/
theorem pairPutsTheFirstByteHigh : Obligations.PairPutsTheFirstByteHigh :=
  fun h l => ⟨pair_eq_shift_or h l, pair_high h l, pair_low h l⟩

/-- Settles O5: the guarded remainder at a positive count, at 65536 and at 0, and the rounding of the key word count. -/
theorem cyclicIndexIsTheGuardedRemainder : Obligations.CyclicIndexIsTheGuardedRemainder := by
  refine ⟨fun x n hpos _ => ⟨cyclicIndex_pos hpos x, Nat.mod_lt _ hpos, ?_⟩, cyclicIndex_zero, keyWordCount_bounds⟩
  rintro rfl
  exact cyclicIndex_stateSize x

end Sys2Proof.Machine
end

section
/-! PROOFS. Decoding, as the statements about the sequencer and the state need it (spec/30_encoding.md rules R53, R56, R57): the word
of a decoded command, and that a legal word decodes. -/

namespace Sys2Proof

/-- A word is its three fields (rule R53). -/
theorem commandWord_fields (w : Word) : commandWord (fieldOp w) (fieldZero w) (fieldData w) = w := by
  have hhigh : fieldOp w ++ fieldZero w = w.extractLsb' 8 8 := BitVec.extractLsb'_append_extractLsb'_eq_extractLsb' rfl
  have hall : w.extractLsb' 8 8 ++ fieldData w = w.extractLsb' 0 16 :=
    BitVec.extractLsb'_append_extractLsb'_eq_extractLsb' rfl
  calc commandWord (fieldOp w) (fieldZero w) (fieldData w)
      = w.extractLsb' 8 8 ++ fieldData w := congrArg (· ++ fieldData w) hhigh
    _ = w := hall.trans BitVec.extractLsb'_eq_self

/-- A command decodes from an operation code of the table and is the command of the word with that code. -/
theorem decodeOp_ok {op : BitVec 4} {data : Byte} {i : Instr} (h : decodeOp op data = .ok i) :
    usedOp op = true ∧ encode i = commandWord op 0 data := by
  simp only [decodeOp] at h
  split_ifs at h with h1 hd h2 h3 hd h4 h5 hd <;> cases h <;> subst_vars <;> exact ⟨rfl, rfl⟩

/-- With `ZERO` = 0 the operation code and the data byte decide. -/
theorem decode_of_zero {w : Word} (h : fieldZero w = 0) : decode w = decodeOp (fieldOp w) (fieldData w) := by
  simp [decode, h]

/-- A word that decodes is the word of the command it decodes to. -/
theorem encode_of_decode {w : Word} {i : Instr} (h : decode w = .ok i) : w = encode i := by
  unfold decode at h
  split at h
  · cases h
  · rename_i hz
    obtain ⟨hu, he⟩ := decodeOp_ok h
    have h0 : fieldZero w = 0 := by simpa [hu] using hz
    rw [he, ← h0, commandWord_fields]

/-- `cmd[11:0] = 0` means that `ZERO` and `DATA` are 0. -/
theorem low_fields_zero {w : Word} (h : w.extractLsb' 0 12 = 0) : fieldZero w = 0 ∧ fieldData w = 0 := by
  have hz : fieldZero w = (w.extractLsb' 0 12).extractLsb' 8 4 := by simp [fieldZero]
  have hd : fieldData w = (w.extractLsb' 0 12).extractLsb' 0 8 := by simp [fieldData]
  rw [hz, hd, h]; decide

/-- A word that rule R57's formula calls legal decodes to a command. -/
theorem exists_decode_of_legal {w : Word} (h : legal w = true) : ∃ i, decode w = .ok i := by
  simp only [legal, Bool.or_eq_true, Bool.and_eq_true, beq_iff_eq] at h
  rcases h with ⟨hop, h0⟩ | ⟨hop, hz⟩
  · obtain ⟨hz, hd⟩ := low_fields_zero h0
    rw [decode_of_zero hz, hd]
    rcases hop with (hop | hop) | hop <;> rw [hop]
    exacts [⟨.rst, rfl⟩, ⟨.sched, rfl⟩, ⟨.stat, rfl⟩]
  · rw [decode_of_zero hz]
    rcases hop with hop | hop <;> rw [hop]
    exacts [⟨.keyb _, rfl⟩, ⟨.crypt _, rfl⟩]

/-- A word that does not decode is illegal (rule R57). -/
theorem legal_eq_false_of_decode_error {w : Word} {e : DecodeError} (h : decode w = .error e) : legal w = false := by
  by_contra hl
  obtain ⟨i, hi⟩ := exists_decode_of_legal (Bool.not_eq_false _ ▸ hl)
  rw [h] at hi
  cases hi

end Sys2Proof
end

section
/-! PROOFS. What each micro-operation writes and where it leaves the sequencer (spec/10_state.md rules R23, R30, R32), and what the
host's moves say of a step. -/

namespace Sys2Proof.Machine

/-! ### The phases that take commands -/

/-- KEYLOAD takes commands. -/
theorem accepting_of_keyload {s : State} (h : s.phase = .keyload) : s.phase.accepting = true := by rw [h]; rfl

/-- READY takes commands. -/
theorem accepting_of_ready {s : State} (h : s.phase = .ready) : s.phase.accepting = true := by rw [h]; rfl

/-- ERROR takes commands. -/
theorem accepting_of_error {s : State} (h : s.phase = .error) : s.phase.accepting = true := by rw [h]; rfl

/-- A phase that takes commands is not busy. -/
theorem State.busy_eq_false {s : State} (h : s.phase.accepting = true) : s.busy = false := by
  simp [State.busy, h]

/-! ### The host's moves -/

/-- A command at the head of the host's moves is the word taken, in a phase that takes commands. -/
theorem State.taken_of_command {s : State} {w : Word} {rest : List HostMove} (ha : s.phase.accepting = true)
    (hh : s.host = .command w :: rest) : s.taken = some w := by
  simp [State.taken, hh, ha]

/-- The word taken is the word of the command it decodes to. -/
theorem State.taken_of_decode {s : State} {w : Word} {rest : List HostMove} {i : Instr} (ha : s.phase.accepting = true)
    (hh : s.host = .command w :: rest) (hd : decode w = .ok i) : s.taken = some (encode i) := by
  rw [State.taken_of_command ha hh, encode_of_decode hd]

/-- A waiting core takes no word. -/
theorem State.Waits.taken_eq_none {s : State} {moves : List HostMove} (h : s.Waits moves) : s.taken = none := by
  rcases h with ⟨-, -, ht⟩ | ⟨delay, rest, hh, -⟩
  · exact ht
  · simp [State.taken, hh]

/-- A hard reset with no delay left strikes. -/
theorem State.resetStrikes_of_head {s : State} {rest : List HostMove} (hh : s.host = .hardReset 0 :: rest) :
    s.resetStrikes = true := by
  simp [State.resetStrikes, hh]

/-- A busy core with no hard reset to come makes its micro-step. -/
theorem step_busy {s : State} (hb : s.busy = true) (hr : s.resetPending = false) : step s = microStep s :=
  step_waits (State.waits_of_busy hb hr)

/-! ### The frame of each micro-operation -/

/-- uFILL writes `S`, `j`, `PHASE` and `CNT` alone (rule R70). -/
theorem uFILL_frame (s : State) :
    uFILL s = { s with S := (uFILL s).S, j := (uFILL s).j, phase := (uFILL s).phase, cnt := (uFILL s).cnt } := by
  rw [uFILL_eq]; split <;> rfl

/-- uKSA writes `S`, `i`, `j`, `PHASE` and `CNT` alone (rule R71). -/
theorem uKSA_frame {s t : State} (h : uKSA s = .ok t) :
    t = { s with S := t.S, i := t.i, j := t.j, phase := t.phase, cnt := t.cnt } := by
  obtain ⟨a, k, b, -, -, -, -, -, rfl⟩ := uKSA_ok_iff.mp h
  split <;> rfl

/-- uPRGA writes `S`, `i` and `j` alone (rule R74). -/
theorem uPRGA_frame {s t : State} {w : Word} (h : uPRGA s = .ok (t, w)) :
    t = { s with S := t.S, i := add16 s.i 1, j := t.j } := by
  obtain ⟨a, b, -, -, -, rfl⟩ := uPRGA_ok_iff.mp h
  rfl

/-- Ingesting a key byte writes `K`, `KLEN` and `KTRUNC` alone (rules R63, R67). -/
theorem ingestKeyByte_frame {s t : State} {d : Byte} (h : ingestKeyByte s d = .ok t) :
    t = { s with K := t.K, klen := t.klen, ktrunc := t.ktrunc } := by
  rcases ingestKeyByte_ok_iff.mp h with ⟨-, rfl⟩ | ⟨-, -, -, rfl⟩ | ⟨-, -, -, old, -, rfl⟩ <;> rfl

/-! ### Where each micro-operation leaves the sequencer (rule R23) -/

/-- uFILL: at the last count to KSA with `j` cleared, before it one more count. -/
theorem uFILL_sequencer (s : State) :
    (s.cnt.toNat + 1 = Config.fillSteps ∧ (uFILL s).phase = .ksa ∧ (uFILL s).cnt = 0 ∧ (uFILL s).j = 0) ∨
    (s.cnt.toNat + 1 ≠ Config.fillSteps ∧ (uFILL s).phase = s.phase ∧ (uFILL s).cnt = s.cnt + 1 ∧ (uFILL s).j = s.j) := by
  rw [uFILL_eq, ne_eq, ← State.lastOf_iff s]
  split
  · exact .inl ⟨‹_›, rfl, rfl, rfl⟩
  · exact .inr ⟨‹_›, rfl, rfl, rfl⟩

/-- uKSA: at the last count to DROP with `i` and `j` cleared, before it one more count. -/
theorem uKSA_sequencer {s t : State} (h : uKSA s = .ok t) :
    (s.cnt.toNat + 1 = Config.ksaSteps ∧ t.phase = .drop ∧ t.cnt = 0 ∧ t.i = 0 ∧ t.j = 0) ∨
    (s.cnt.toNat + 1 ≠ Config.ksaSteps ∧ t.phase = s.phase ∧ t.cnt = s.cnt + 1 ∧ t.i = s.i) := by
  obtain ⟨a, k, b, -, -, -, -, -, rfl⟩ := uKSA_ok_iff.mp h
  rw [ne_eq, ← State.lastOf_iff s]
  split
  · exact .inl ⟨‹_›, rfl, rfl, rfl, rfl⟩
  · exact .inr ⟨‹_›, rfl, rfl, rfl⟩

/-- A step of DROP: at the last count to READY with the response of SCHED, before it one more count. -/
theorem drop_sequencer {s t u : State} {w : Word} (hu : uPRGA s = .ok (u, w))
    (ht : t = if u.lastOf Config.dropSteps then (u.goto .ready).respond 0 else u.count) :
    (s.cnt.toNat + 1 = Config.dropSteps ∧ t = (u.goto .ready).respond 0) ∨
    (s.cnt.toNat + 1 ≠ Config.dropSteps ∧ t = u.count) := by
  have hcnt : u.cnt = s.cnt := (congrArg State.cnt (uPRGA_frame hu) :)
  rw [← hcnt, ne_eq, ← State.lastOf_iff u]
  split at ht
  · exact .inl ⟨‹_›, ht⟩
  · exact .inr ⟨‹_›, ht⟩

/-! ### `S` stays a permutation (rule R32) -/

/-- Exchanging two words of a permutation memory leaves it a permutation. -/
theorem Memory.IsPermutation.exchange {m : Memory} {a b v w : Word} (h : m.IsPermutation)
    (ha : m.read? a.toNat = some v) (hb : m.read? b.toNat = some w) :
    Memory.IsPermutation ((m.write a.toNat w).write b.toNat v) := by
  obtain ⟨t, ht, hbij⟩ := h.holds
  obtain rfl : t a = v := Option.some.inj ((ht a).symm.trans ha)
  obtain rfl : t b = w := Option.some.inj ((ht b).symm.trans hb)
  exact (ht.swap a b).2.isPermutation (Table.swap_bijective hbij a b)

/-- uKSA keeps `S` a permutation. -/
theorem uKSA_isPermutation {s t : State} (h : uKSA s = .ok t) (hp : s.S.IsPermutation) : t.S.IsPermutation := by
  obtain ⟨a, k, b, -, ha, -, -, hb, rfl⟩ := uKSA_ok_iff.mp h
  split <;> exact hp.exchange ha hb

/-- uPRGA keeps `S` a permutation. -/
theorem uPRGA_isPermutation {s t : State} {w : Word} (h : uPRGA s = .ok (t, w)) (hp : s.S.IsPermutation) :
    t.S.IsPermutation := by
  obtain ⟨a, b, ha, hb, -, rfl⟩ := uPRGA_ok_iff.mp h
  exact hp.exchange ha hb

/-! ### The canonical form of `S` -/

/-- Two writes at indices of the memory keep the canonical form. -/
theorem Memory.wf_exchange {m : Memory} (h : m.wf) (a b v w : Word) :
    Memory.wf ((m.write a.toNat w).write b.toNat v) :=
  Memory.wf_write (Memory.wf_write h (word_index_lt a) w) (word_index_lt b) v

/-- uKSA keeps the canonical form. -/
theorem uKSA_wf {s t : State} (h : uKSA s = .ok t) (hw : s.S.wf) : t.S.wf := by
  obtain ⟨a, k, b, -, -, -, -, -, rfl⟩ := uKSA_ok_iff.mp h
  split <;> exact Memory.wf_exchange hw _ _ _ _

/-- uPRGA keeps the canonical form. -/
theorem uPRGA_wf {s t : State} {w : Word} (h : uPRGA s = .ok (t, w)) (hw : s.S.wf) : t.S.wf := by
  obtain ⟨a, b, -, -, -, rfl⟩ := uPRGA_ok_iff.mp h
  exact Memory.wf_exchange hw _ _ _ _

end Sys2Proof.Machine
end

section
/-! PROOFS. Every step keeps the invariant (spec/10_state.md sections 3 to 7, spec/20_memory.md rule R51): one lemma for each kind of
step, then the statement. -/

namespace Sys2Proof.Machine

/-! ### The invariant and the host's side of the interface -/

/-- The invariant does not speak of the host's moves. -/
theorem State.Inv.withHost {s : State} (h : s.Inv) (moves : List HostMove) : (s.withHost moves).Inv := by
  obtain ⟨⟩ := h; constructor <;> assumption

/-- The invariant does not speak of the responses. -/
theorem State.Inv.respond {s : State} (h : s.Inv) (d : Byte) : (s.respond d).Inv := by
  obtain ⟨⟩ := h; constructor <;> assumption

/-- Every reset leaves a state that meets the invariant. -/
theorem State.resetCore_inv (s : State) : s.resetCore.Inv where
  canonicalS := ⟨List.Pairwise.nil, nofun⟩
  canonicalK := ⟨List.Pairwise.nil, nofun⟩
  klenBound := Nat.zero_le _
  truncFull := nofun
  causeInError := ⟨fun h => absurd rfl h, nofun⟩
  cntRange := Nat.one_pos
  keyWritten a ha := absurd ha (by simp [keyWordCount])
  oddPadded h := absurd (show firstOfPair 0 = false from h) (by decide)
  keyed h := absurd rfl h
  indexZero _ := rfl
  accumulatorZero _ := rfl
  indexCounts := nofun
  filled := nofun
  permuted h := by rcases h with h | h | h <;> cases h

/-! ### `CNT` and the indices -/

/-- A step before the last of its phase leaves `CNT` in the range of the phase. -/
theorem cnt_succ_lt {cnt : BitVec 20} {steps : Nat} (h : cnt.toNat < steps) (hs : steps ≤ 786432)
    (hlast : cnt.toNat + 1 ≠ steps) : (cnt + 1).toNat < steps := by
  rw [cnt_succ_toNat (by omega)]; omega

/-- The loop variable of the next count is one more, modulo 65536. -/
theorem loopIndex_succ (cnt : BitVec 20) : loopIndex (cnt + 1) = add16 (loopIndex cnt) 1 := by
  apply BitVec.eq_of_toNat_eq
  rw [add16_toNat, loopIndex_toNat, loopIndex_toNat, BitVec.toNat_add]
  simp

/-- `CNT` is in the range of the phase. -/
theorem State.Inv.cnt_lt {s : State} {p : Phase} (h : s.Inv) (hp : s.phase = p) : s.cnt.toNat < p.steps :=
  hp ▸ h.cntRange

/-- In KEYLOAD, READY and ERROR `CNT` is 0. -/
theorem State.Inv.cnt_toNat_eq_zero {s : State} (h : s.Inv) (ha : s.phase.accepting = true) : s.cnt.toNat = 0 := by
  have hc := h.cntRange
  rcases (Phase.accepting_iff _).mp ha with hp | hp | hp <;> simpa [hp, Phase.steps] using hc

/-! ### The schedule and the stream keep the invariant -/

/-- In FILL, KSA, DROP and READY the key is loaded and only `S`, `i`, `j`, `PHASE` and `CNT` move: a state with new values of
these meets the invariant when they do what the invariant says of them. -/
theorem State.Inv.running {s : State} (h : s.Inv) (hs : s.phase ≠ .keyload ∧ s.phase ≠ .error) {m : Memory} {i j : Word}
    {p : Phase} {n : BitVec 20} (hp : p ≠ .keyload ∧ p ≠ .error) (canonicalS : m.wf) (cntRange : n.toNat < p.steps)
    (indexZero : p = .fill ∨ p = .ksa → i = 0) (accumulatorZero : p = .fill → j = 0)
    (indexCounts : p = .drop → i = loopIndex n)
    (filled : p = .fill → ∀ a < n.toNat, m.read? a = some (BitVec.ofNat 16 a))
    (permuted : p = .ksa ∨ p = .drop ∨ p = .ready → m.IsPermutation) :
    State.Inv { s with S := m, i := i, j := j, phase := p, cnt := n } where
  canonicalS := canonicalS
  canonicalK := h.canonicalK
  klenBound := h.klenBound
  truncFull := h.truncFull
  causeInError := iff_of_false (fun hc => hs.2 (h.causeInError.mp hc)) hp.2
  cntRange := cntRange
  keyWritten := h.keyWritten
  oddPadded := h.oddPadded
  keyed _ _ := h.keyed hs.1 hs.2
  indexZero hq := indexZero (hq.resolve_left hp.1)
  accumulatorZero hq := accumulatorZero (hq.resolve_left hp.1)
  indexCounts := indexCounts
  filled := filled
  permuted := permuted

/-- One uFILL extends the identity by a word (rule R70). -/
theorem State.Inv.filled_succ {s : State} (h : s.Inv) (hp : s.phase = .fill) :
    ∀ a < s.cnt.toNat + 1, (s.S.write (loopIndex s.cnt).toNat (loopIndex s.cnt)).read? a = some (BitVec.ofNat 16 a) := by
  intro a ha
  have hx : (loopIndex s.cnt).toNat = s.cnt.toNat := loopIndex_toNat_of_lt (h.cnt_lt hp)
  rw [Memory.read?_write]
  split
  · rename_i heq; rw [heq, BitVec.ofNat_toNat, BitVec.setWidth_eq]
  · exact h.filled hp a (by omega)

/-- A memory that holds the identity is a permutation. -/
theorem Memory.isPermutation_of_identity {m : Memory} (h : ∀ a < 65536, m.read? a = some (BitVec.ofNat 16 a)) :
    m.IsPermutation := by
  refine Memory.Holds.isPermutation (t := id) (fun a => ?_) Function.bijective_id
  rw [h a.toNat a.isLt, BitVec.ofNat_toNat, BitVec.setWidth_eq, id]

/-- What uFILL leaves in `S`. -/
theorem uFILL_S (s : State) : (uFILL s).S = s.S.write (loopIndex s.cnt).toNat (loopIndex s.cnt) := by
  rw [uFILL_eq]; split <;> rfl

/-- The last uFILL leaves `S` a permutation (rule R32). -/
theorem uFILL_isPermutation {s : State} (h : s.Inv) (hp : s.phase = .fill) (hl : s.cnt.toNat + 1 = Config.fillSteps) :
    (uFILL s).S.IsPermutation := by
  rw [uFILL_S]
  exact Memory.isPermutation_of_identity fun a ha => h.filled_succ hp a (hl ▸ ha)

/-- uFILL keeps the invariant. -/
theorem State.Inv.fill_step {s : State} (h : s.Inv) (hp : s.phase = .fill) : (uFILL s).Inv := by
  have hwf : (uFILL s).S.wf := uFILL_S s ▸ Memory.wf_write h.canonicalS (word_index_lt _) _
  have hi : s.i = 0 := h.indexZero (.inr (.inl hp))
  have hrange := h.cnt_lt hp
  have hperm := uFILL_isPermutation h hp
  rw [uFILL_frame]
  rcases uFILL_sequencer s with ⟨hl, hphase, hcnt, hj⟩ | ⟨hl, hphase, hcnt, hj⟩
  · exact h.running (by simp [hp]) (by simp [hphase]) hwf (by simp [hphase, hcnt, Phase.steps, Config.ksaSteps])
      (fun _ => hi) (fun _ => hj) (by simp [hphase]) (by simp [hphase]) (fun _ => hperm hl)
  · refine h.running (by simp [hp]) (by simp [hphase, hp]) hwf ?_ (fun _ => hi)
      (fun _ => hj.trans (h.accumulatorZero (.inr hp))) (by simp [hphase, hp]) (fun _ => ?_) (by simp [hphase, hp])
    · rw [hphase, hp, hcnt]; exact cnt_succ_lt hrange (by decide) hl
    · rw [hcnt, cnt_succ_toNat (lt_trans hrange (by decide)), uFILL_S]; exact h.filled_succ hp

/-- uKSA keeps the invariant. -/
theorem State.Inv.ksa_step {s t : State} (h : s.Inv) (hp : s.phase = .ksa) (ht : uKSA s = .ok t) : t.Inv := by
  have hwf := uKSA_wf ht h.canonicalS
  have hperm := uKSA_isPermutation ht (h.permuted (.inl hp))
  rw [uKSA_frame ht]
  rcases uKSA_sequencer ht with ⟨-, hphase, hcnt, hi, -⟩ | ⟨hl, hphase, hcnt, hi⟩
  · exact h.running (by simp [hp]) (by simp [hphase]) hwf (by simp [hphase, hcnt, Phase.steps, Config.dropSteps])
      (by simp [hphase]) (by simp [hphase]) (fun _ => by rw [hi, hcnt]; rfl) (by simp [hphase]) (fun _ => hperm)
  · refine h.running (by simp [hp]) (by simp [hphase, hp]) hwf ?_
      (fun _ => hi.trans (h.indexZero (.inr (.inr hp)))) (by simp [hphase, hp]) (by simp [hphase, hp]) (by simp [hphase, hp])
      (fun _ => hperm)
    rw [hphase, hp, hcnt]; exact cnt_succ_lt (h.cnt_lt hp) (by decide) hl

/-- A step of DROP keeps the invariant. -/
theorem State.Inv.drop_step {s t u : State} {w : Word} (h : s.Inv) (hp : s.phase = .drop) (hu : uPRGA s = .ok (u, w))
    (ht : t = if u.lastOf Config.dropSteps then (u.goto .ready).respond 0 else u.count) : t.Inv := by
  have hwf := uPRGA_wf hu h.canonicalS
  have hperm := uPRGA_isPermutation hu (h.permuted (.inr (.inl hp)))
  rcases drop_sequencer hu ht with ⟨-, rfl⟩ | ⟨hl, rfl⟩
  · refine State.Inv.respond ?_ 0
    rw [uPRGA_frame hu]
    exact h.running (by simp [hp]) (by simp) hwf (by simp [Phase.steps]) (by simp) (by simp) (by simp) (by simp)
      (fun _ => hperm)
  · rw [uPRGA_frame hu]
    refine h.running (by simp [hp]) (by simp [hp]) hwf ?_ (by simp [hp]) (by simp [hp]) (fun _ => ?_) (by simp [hp])
      (fun _ => hperm)
    · rw [hp]; exact cnt_succ_lt (h.cnt_lt hp) (by decide) hl
    · rw [h.indexCounts hp]; exact (loopIndex_succ s.cnt).symm

/-- CRYPT in READY keeps the invariant. -/
theorem State.Inv.crypt_step {s t : State} {d : Byte} (h : s.Inv) (hp : s.phase = .ready) (ht : encryptByte s d = .ok t) :
    t.Inv := by
  obtain ⟨u, w, hu, rfl⟩ := encryptByte_ok_iff.mp ht
  refine State.Inv.respond ?_ _
  have hwf := uPRGA_wf hu h.canonicalS
  have hperm := uPRGA_isPermutation hu (h.permuted (.inr (.inr hp)))
  rw [uPRGA_frame hu]
  exact h.running (by simp [hp]) (by simp [hp]) hwf h.cntRange (by simp [hp]) (by simp [hp]) (by simp [hp]) (by simp [hp])
    (fun _ => hperm)

/-! ### The other commands keep the invariant -/

/-- An error entry keeps it (rule R97). -/
theorem State.Inv.raise {s : State} {c : Cause} (h : s.Inv) (hp : s.phase = .keyload ∨ s.phase = .ready) (hc : c ≠ .none) :
    (s.raise c).Inv where
  canonicalS := h.canonicalS
  canonicalK := h.canonicalK
  klenBound := h.klenBound
  truncFull := h.truncFull
  causeInError := iff_of_true hc rfl
  cntRange := by
    have : s.cnt.toNat = 0 := h.cnt_toNat_eq_zero ((Phase.accepting_iff _).mpr (hp.imp id .inl))
    simp [this, Phase.steps]
  keyWritten := h.keyWritten
  oddPadded := h.oddPadded
  keyed _ he := absurd rfl he
  indexZero := by simp
  accumulatorZero := by simp
  indexCounts := by simp
  filled := by simp
  permuted := by simp

/-- The entry of SCHED keeps it: a key is loaded, `i` and `j` are still 0, and no word is filled yet (rule R69). -/
theorem State.Inv.sched_step {s : State} (h : s.Inv) (hp : s.phase = .keyload) (hk : s.klen ≠ 0) : (s.goto .fill).Inv where
  canonicalS := h.canonicalS
  canonicalK := h.canonicalK
  klenBound := h.klenBound
  truncFull := h.truncFull
  causeInError := iff_of_false (fun hc => absurd (h.causeInError.mp hc) (by simp [hp])) nofun
  cntRange := by simp [Phase.steps, Config.fillSteps]
  keyWritten := h.keyWritten
  oddPadded := h.oddPadded
  keyed _ _ := Nat.one_le_iff_ne_zero.mpr fun h0 => hk (BitVec.eq_of_toNat_eq h0)
  indexZero _ := h.indexZero (.inl hp)
  accumulatorZero _ := h.accumulatorZero (.inl hp)
  indexCounts := by simp
  filled := by simp
  permuted := by simp

/-! ### KEYB keeps the invariant -/

/-- A write keeps the words written so far. -/
theorem Memory.WrittenBelow.write {m : Memory} {n : Nat} (h : m.WrittenBelow n) (a : Nat) (w : Word) :
    Memory.WrittenBelow (m.write a w) n := by
  intro b hb
  rw [Memory.read?_write]
  split
  · exact ⟨w, rfl⟩
  · exact h b hb

/-- Writing the next word extends the words written by it. -/
theorem Memory.WrittenBelow.write_succ {m : Memory} {n : Nat} (h : m.WrittenBelow n) (w : Word) :
    Memory.WrittenBelow (m.write n w) (n + 1) := by
  intro b hb
  rw [Memory.read?_write]
  split
  · exact ⟨w, rfl⟩
  · exact h b (by omega)

/-- In KEYLOAD `K`, `KLEN` and `KTRUNC` alone move: a state with new values of these meets the invariant when they do what the
invariant says of them. -/
theorem State.Inv.loading {s : State} (h : s.Inv) (hp : s.phase = .keyload) {m : Memory} {n : BitVec 18} {b : Bool}
    (canonicalK : m.wf) (klenBound : n.toNat ≤ Config.keyMaxBytes) (truncFull : b = true → n.toNat = Config.keyMaxBytes)
    (keyWritten : m.WrittenBelow (keyWordCount n))
    (oddPadded : firstOfPair n = false → ∃ c : Byte, m.read? (keyByteIndex n) = some (pair c 0)) :
    State.Inv { s with K := m, klen := n, ktrunc := b } where
  canonicalS := h.canonicalS
  canonicalK := canonicalK
  klenBound := klenBound
  truncFull := truncFull
  causeInError := h.causeInError
  cntRange := h.cntRange
  keyWritten := keyWritten
  oddPadded := oddPadded
  keyed hk := absurd hp hk
  indexZero := h.indexZero
  accumulatorZero := h.accumulatorZero
  indexCounts := h.indexCounts
  filled := h.filled
  permuted := h.permuted

/-- An odd byte count, as a number. -/
theorem firstOfPair_eq_false_iff (klen : BitVec 18) : firstOfPair klen = false ↔ klen.toNat % 2 = 1 := by
  rw [← Bool.not_eq_true, firstOfPair_iff]; omega

/-- After the first byte of a pair: its word is the next key word, and the key has odd length. -/
theorem keyWords_of_first {klen : BitVec 18} (hlt : klen.toNat < 131072) (h : firstOfPair klen = true) :
    keyWordCount klen = keyByteIndex klen ∧ keyWordCount (klen + 1) = keyByteIndex klen + 1 ∧
      keyByteIndex (klen + 1) = keyByteIndex klen := by
  have hk := (firstOfPair_iff klen).mp h
  have hs := klen_succ_toNat hlt
  refine ⟨?_, ?_, ?_⟩ <;> simp only [keyWordCount, keyByteIndex] <;> omega

/-- After the second byte of a pair: its word was a key word already, and the key has even length. -/
theorem keyWords_of_second {klen : BitVec 18} (hlt : klen.toNat < 131072) (h : firstOfPair klen = false) :
    keyByteIndex klen < keyWordCount klen ∧ keyWordCount (klen + 1) = keyWordCount klen ∧
      firstOfPair (klen + 1) = true := by
  have hk := (firstOfPair_eq_false_iff klen).mp h
  have hs := klen_succ_toNat hlt
  refine ⟨?_, ?_, ?_⟩ <;> simp only [keyWordCount, keyByteIndex, firstOfPair_iff] <;> omega

/-- Ingesting a key byte keeps the invariant (rules R63, R67). -/
theorem State.Inv.ingest_step {s t : State} {d : Byte} (h : s.Inv) (hp : s.phase = .keyload)
    (ht : ingestKeyByte s d = .ok t) : t.Inv := by
  have hroom (hfull : s.klen.toNat ≠ Config.keyMaxBytes) : s.klen.toNat < 131072 := lt_of_le_of_ne h.klenBound hfull
  have hbound (hfull : s.klen.toNat ≠ Config.keyMaxBytes) : (s.klen + 1).toNat ≤ Config.keyMaxBytes :=
    (klen_succ_toNat (hroom hfull)).symm ▸ hroom hfull
  have htrunc (hfull : s.klen.toNat ≠ Config.keyMaxBytes) {p : Prop} (hb : s.ktrunc = true) : p :=
    absurd (h.truncFull hb) hfull
  rcases ingestKeyByte_ok_iff.mp ht with ⟨hfull, rfl⟩ | ⟨hfull, hfirst, ha, rfl⟩ | ⟨hfull, hsecond, ha, old, -, rfl⟩
  · exact h.loading hp h.canonicalK h.klenBound (fun _ => hfull) h.keyWritten h.oddPadded
  · obtain ⟨hcount, hcount', hindex⟩ := keyWords_of_first (hroom hfull) hfirst
    refine h.loading hp (Memory.wf_write h.canonicalK ha _) (hbound hfull) (htrunc hfull) ?_ (fun _ => ⟨d, ?_⟩)
    · rw [hcount']; exact (hcount ▸ h.keyWritten).write_succ _
    · rw [hindex]; exact Memory.read?_write_self _ _ _
  · obtain ⟨-, hcount, heven⟩ := keyWords_of_second (hroom hfull) hsecond
    refine h.loading hp (Memory.wf_write h.canonicalK ha _) (hbound hfull) (htrunc hfull) ?_ (fun hodd => ?_)
    · rw [hcount]; exact h.keyWritten.write _ _
    · rw [heven] at hodd; cases hodd

/-! ### The statement -/

/-- A raised cause is never the absence of one. -/
theorem Raises.cause_ne_none {s : State} {w : Word} {c : Cause} (h : Raises s w c) : c ≠ .none := by
  cases h <;> decide

/-- Settles O17, by the cases of a step: each keeps the invariant by its own lemma. -/
theorem everyStepKeepsTheInvariant : Obligations.EveryStepKeepsTheInvariant := by
  intro s t h hstep
  cases step_cases hstep with
  | hardReset rest _ ht => exact ht ▸ State.resetCore_inv _
  | idle moves _ _ ht => exact ht ▸ h.withHost moves
  | fill moves hp _ ht => exact ht ▸ (h.withHost moves).fill_step hp
  | ksa moves hp _ ht => exact (h.withHost moves).ksa_step hp ht
  | drop moves hp _ u w hu ht => exact (h.withHost moves).drop_step hp hu ht
  | rst w rest _ _ _ ht => exact ht ▸ (State.resetCore_inv _).respond 0
  | stat w rest _ _ _ ht => exact ht ▸ (h.withHost rest).respond 0
  | ignored w rest _ _ _ ht => exact ht ▸ (h.withHost rest).respond 0
  | raised w rest c hp _ hc ht => exact ht ▸ (h.withHost rest).raise hp hc.cause_ne_none
  | keyb w rest d hp _ _ u hu ht => exact ht ▸ ((h.withHost rest).ingest_step hp hu).respond 0
  | sched w rest hp _ _ hk ht => exact ht ▸ (h.withHost rest).sched_step hp hk
  | crypt w rest d hp _ _ ht => exact (h.withHost rest).crypt_step hp ht

end Sys2Proof.Machine
end

section
/-! PROOFS. The statements about one step: the reset values, the permutation, the busy core, the responses (spec/10_state.md rules R24,
R28, R32, R35; spec/30_encoding.md rules R52, R54). -/

namespace Sys2Proof.Machine

/-- Settles O15: the values of the reset state. -/
theorem resetLeavesTheStatedValues : Obligations.ResetLeavesTheStatedValues :=
  ⟨rfl, rfl, rfl, rfl, rfl, rfl, rfl, rfl, fun _ => ⟨rfl, rfl⟩, rfl, rfl⟩

/-! ### `S` from the end of FILL to the next reset -/

/-- A step from KSA, DROP, READY or ERROR keeps `S` a permutation, or it is a reset and ends in KEYLOAD. -/
theorem step_isPermutation {s t : State} (hs : s.phase = .ksa ∨ s.phase = .drop ∨ s.phase = .ready ∨ s.phase = .error)
    (hperm : s.S.IsPermutation) (h : step s = .next t) : t.phase = .keyload ∨ t.S.IsPermutation := by
  have hsched {p : Prop} (hp : s.phase = .keyload ∨ s.phase = .fill) : p := by
    rcases hs with h | h | h | h <;> rcases hp with hp | hp <;> rw [h] at hp <;> cases hp
  cases step_cases h with
  | hardReset rest _ ht => exact .inl (ht ▸ rfl)
  | idle moves _ _ ht => exact .inr (ht ▸ hperm)
  | fill moves hp _ ht => exact hsched (.inr hp)
  | ksa moves hp _ ht => exact .inr (uKSA_isPermutation ht hperm)
  | drop moves hp _ u w hu ht =>
    have hu' : u.S.IsPermutation := uPRGA_isPermutation hu hperm
    rcases drop_sequencer hu ht with ⟨-, rfl⟩ | ⟨-, rfl⟩ <;> exact .inr hu'
  | rst w rest _ _ _ ht => exact .inl (ht ▸ rfl)
  | stat w rest _ _ _ ht => exact .inr (ht ▸ hperm)
  | ignored w rest _ _ _ ht => exact .inr (ht ▸ hperm)
  | raised w rest c hp _ hc ht => exact .inr (ht ▸ hperm)
  | keyb w rest d hp _ _ u hu ht => exact hsched (.inl hp)
  | sched w rest hp _ _ hk ht => exact hsched (.inl hp)
  | crypt w rest d hp _ _ ht =>
    obtain ⟨u, w, hu, rfl⟩ := encryptByte_ok_iff.mp ht
    have hu' : u.S.IsPermutation := uPRGA_isPermutation hu hperm
    exact .inr hu'

/-- Settles O19: the invariant at the end of FILL, and then step by step. -/
theorem permutationHoldsFromFillToReset : Obligations.PermutationHoldsFromFillToReset :=
  ⟨fun s t h _ hstep hksa => (everyStepKeepsTheInvariant s t h hstep).permuted (.inl hksa),
    fun _ _ hs hperm hstep hne => (step_isPermutation hs hperm hstep).resolve_left hne⟩

/-! ### The busy core -/

/-- A micro-step leaves the host's moves to the host. -/
theorem microStep_host {s t : State} (h : microStep s = .next t) : t.host = s.host := by
  cases hp : s.phase with
  | fill =>
    rw [microStep_fill hp] at h
    cases h
    rw [uFILL_frame]
  | ksa => rw [uKSA_frame ((microStep_ksa_iff hp).mp h)]
  | drop =>
    obtain ⟨u, w, hu, ht⟩ := (microStep_drop_iff hp).mp h
    rcases drop_sequencer hu ht with ⟨-, rfl⟩ | ⟨-, rfl⟩ <;> rw [uPRGA_frame hu] <;> rfl
  | keyload | ready | error =>
    rw [microStep_idle (by rw [hp]; rfl)] at h
    cases h; rfl

/-- In FILL, KSA and DROP every command is refused. -/
theorem exec_busy {s : State} (i : Instr) (h : s.busy = true) : exec i s = .refused .commandInProgress := by
  have ha : s.phase.accepting = false := by simpa [State.busy] using h
  cases i <;> exact whenAccepting_busy ha _

/-- Settles O22: `exec` by `whenAccepting`, and the step because it is a micro-step. -/
theorem busyCoreTakesNoCommand : Obligations.BusyCoreTakesNoCommand :=
  ⟨fun _ i hb => exec_busy i hb, fun _ _ hb hr hstep => microStep_host (step_busy hb hr ▸ hstep)⟩

/-! ### The responses -/

/-- A step's response: the status of the state it leaves, which takes commands, and a byte that is 0 but from a CRYPT in READY. -/
def Answers (s t : State) : Prop :=
  ∃ d : Byte, t.responses = s.responses ++ [responseWord t.status d] ∧ t.phase.accepting = true ∧
    (d ≠ 0 → t.phase = .ready ∧ ∃ c, s.taken = some (encode (.crypt c)))

/-- A response with the byte 0x00. -/
theorem Answers.zero {s t : State} (hr : t.responses = s.responses ++ [responseWord t.status 0])
    (ha : t.phase.accepting = true) : Answers s t :=
  ⟨0, hr, ha, fun h => absurd rfl h⟩

/-- All that a step can do to the responses: it returns none, or one. -/
theorem step_responses {s t : State} (h : step s = .next t) : t.responses = s.responses ∨ Answers s t := by
  cases step_cases h with
  | hardReset rest _ ht => exact .inl (ht ▸ rfl)
  | idle moves _ _ ht => exact .inl (ht ▸ rfl)
  | fill moves _ _ ht => left; rw [ht, uFILL_frame]; rfl
  | ksa moves _ _ ht => left; rw [uKSA_frame ht]; rfl
  | drop moves _ _ u w hu ht =>
    have hr : u.responses = s.responses := by rw [uPRGA_frame hu]; rfl
    rcases drop_sequencer hu ht with ⟨-, rfl⟩ | ⟨-, rfl⟩
    · exact .inr (.zero (hr ▸ rfl) rfl)
    · exact .inl hr
  | rst w rest _ _ _ ht => subst ht; exact .inr (.zero rfl rfl)
  | stat w rest ha _ _ ht => subst ht; exact .inr (.zero rfl ha)
  | ignored w rest hp _ _ ht => subst ht; exact .inr (.zero rfl (accepting_of_error hp))
  | raised w rest c _ _ _ ht => subst ht; exact .inr (.zero rfl rfl)
  | keyb w rest d hp _ _ u hu ht =>
    have hr : u.responses = s.responses := by rw [ingestKeyByte_frame hu]; rfl
    have hu' : u.phase = .keyload := by rw [ingestKeyByte_frame hu]; exact hp
    subst ht
    exact .inr (.zero (hr ▸ rfl) (accepting_of_keyload hu'))
  | sched w rest _ _ _ _ ht => exact .inl (ht ▸ rfl)
  | crypt w rest d hp hh hd ht =>
    obtain ⟨u, w', hu, rfl⟩ := encryptByte_ok_iff.mp ht
    have hr : u.responses = s.responses := by rw [uPRGA_frame hu]; rfl
    have hu' : u.phase = .ready := by rw [uPRGA_frame hu]; exact hp
    exact .inr ⟨uXOR d (uEXTRACT w'), hr ▸ rfl, accepting_of_ready hu',
      fun _ => ⟨hu', d, State.taken_of_decode (accepting_of_ready hp) hh hd⟩⟩

/-- In a state that takes commands the invariant leaves ten values of `STATUS`: `ECODE` is 0 but in ERROR, where it is one of three
causes (rules R27, R28). -/
theorem State.Inv.status_mem {s : State} (h : s.Inv) (ha : s.phase.accepting = true) :
    s.status ∈ ([0x00, 0x08, 0x04, 0x0C, 0x17, 0x1F, 0x27, 0x2F, 0x37, 0x3F] : List Byte) := by
  have hnone (hp : s.phase ≠ .error) : s.ecode = .none := by
    by_contra hc; exact hp (h.causeInError.mp hc)
  unfold State.status
  rcases (Phase.accepting_iff _).mp ha with hp | hp | hp
  · rw [hp, hnone (by simp [hp])]; cases s.ktrunc <;> decide
  · rw [hp, hnone (by simp [hp])]; cases s.ktrunc <;> decide
  · have hcause : s.ecode ≠ .none := h.causeInError.mpr hp
    rw [hp]
    cases hc : s.ecode with
    | none => exact absurd hc hcause
    | keyScheduleError | illegalCommand | sequenceError => cases s.ktrunc <;> decide

/-- Settles O7: a response by `step_responses`, its status by the invariant of the state the step leaves. -/
theorem everyResponseCarriesOneOfTenStatuses : Obligations.EveryResponseCarriesOneOfTenStatuses := by
  intro s t r h hstep hr
  rcases step_responses hstep with hnone | ⟨d, hone, ha, hd⟩
  · rw [hnone] at hr
    exact absurd hr (by simp)
  · obtain rfl : r = responseWord t.status d := by simpa [hone] using hr.symm
    rw [responseStatus_responseWord, responseDout_responseWord]
    refine ⟨rfl, (everyStepKeepsTheInvariant s t h hstep).status_mem ha, fun hne => ?_⟩
    obtain ⟨hready, htaken⟩ := hd hne
    refine ⟨?_, htaken⟩
    rw [carriesOutput, responsePhase_responseWord, State.status_phase, hready, beq_self_eq_true]

end Sys2Proof.Machine
end

section
/-! PROOFS. The sequencer's table and the access table (spec/10_state.md rules R23, R30), each by the cases of a step. -/

namespace Sys2Proof.Machine

/-- The last count of a phase, as the value of `CNT`. -/
theorem cnt_eq_of_last {cnt last : BitVec 20} {steps : Nat} (h : cnt.toNat + 1 = steps) (hlast : last.toNat + 1 = steps) :
    cnt = last :=
  BitVec.eq_of_toNat_eq (by omega)

/-- Why an error is raised, in terms of the word taken: the row KEYLOAD or READY to ERROR of the sequencer's table. -/
theorem Raises.row {s : State} {w : Word} {rest : List HostMove} {c : Cause} (h : Raises s w c)
    (hp : s.phase = .keyload ∨ s.phase = .ready) (hh : s.host = .command w :: rest) :
    (s.phase = .keyload ∧ s.taken = some (encode .sched) ∧ s.klen = 0 ∧ c = .keyScheduleError) ∨
    ((s.phase = .keyload ∨ s.phase = .ready) ∧ (∃ w, s.taken = some w ∧ legal w = false) ∧ c = .illegalCommand) ∨
    (s.phase = .keyload ∧ (∃ d, s.taken = some (encode (.crypt d))) ∧ c = .sequenceError) ∨
    (s.phase = .ready ∧ ((∃ d, s.taken = some (encode (.keyb d))) ∨ s.taken = some (encode .sched)) ∧
      c = .sequenceError) := by
  have ha : s.phase.accepting = true := hp.elim accepting_of_keyload accepting_of_ready
  cases h with
  | illegal e hd =>
    exact .inr (.inl ⟨hp, ⟨w, State.taken_of_command ha hh, legal_eq_false_of_decode_error hd⟩, rfl⟩)
  | keybInReady d hd hready => exact .inr (.inr (.inr ⟨hready, .inl ⟨d, State.taken_of_decode ha hh hd⟩, rfl⟩))
  | schedInReady hd hready => exact .inr (.inr (.inr ⟨hready, .inr (State.taken_of_decode ha hh hd), rfl⟩))
  | cryptInKeyload d hd hload => exact .inr (.inr (.inl ⟨hload, ⟨d, State.taken_of_decode ha hh hd⟩, rfl⟩))
  | emptyKey hd hload hk => exact .inl ⟨hload, State.taken_of_decode ha hh hd, hk, rfl⟩

/-- Settles O26, by the cases of a step: each is one row of the table, or the core waits. -/
theorem sequencerMakesOnlyTheTabledTransitions : Obligations.SequencerMakesOnlyTheTabledTransitions := by
  intro s t hstep
  cases step_cases hstep with
  | hardReset rest hh ht =>
    subst ht
    exact .inl ⟨rfl, rfl, rfl, rfl, rfl, rfl, rfl, .inl (State.resetStrikes_of_head hh)⟩
  | rst w rest ha hh hd ht =>
    subst ht
    exact .inl ⟨rfl, rfl, rfl, rfl, rfl, rfl, rfl, .inr ⟨State.busy_eq_false ha, State.taken_of_decode ha hh hd⟩⟩
  | idle moves ha hw ht =>
    subst ht
    exact .inr (.inl ⟨State.busy_eq_false ha, rfl, rfl, rfl, .inl hw.taken_eq_none⟩)
  | stat w rest ha hh hd ht =>
    subst ht
    have htaken := State.taken_of_decode ha hh hd
    refine .inr (.inl ⟨State.busy_eq_false ha, rfl, rfl, rfl, .inr ?_⟩)
    rcases (Phase.accepting_iff _).mp ha with hp | hp | hp
    · exact .inl ⟨hp, .inr htaken⟩
    · exact .inr (.inl ⟨hp, .inr htaken⟩)
    · exact .inr (.inr ⟨hp, by rw [htaken]; decide⟩)
  | ignored w rest hp hh hd ht =>
    subst ht
    have ha := accepting_of_error hp
    have hne : s.taken ≠ some (encode .rst) := by
      rw [State.taken_of_command ha hh]
      intro hw
      exact hd (Option.some.inj hw ▸ rfl)
    exact .inr (.inl ⟨State.busy_eq_false ha, rfl, rfl, rfl, .inr (.inr (.inr ⟨hp, hne⟩))⟩)
  | keyb w rest d hp hh hd u hu ht =>
    have ha := accepting_of_keyload hp
    have htaken := State.taken_of_decode ha hh hd
    rw [ht, ingestKeyByte_frame hu]
    exact .inr (.inl ⟨State.busy_eq_false ha, rfl, rfl, rfl, .inr (.inl ⟨hp, .inl ⟨d, htaken⟩⟩)⟩)
  | crypt w rest d hp hh hd ht =>
    have ha := accepting_of_ready hp
    have htaken := State.taken_of_decode ha hh hd
    obtain ⟨u, w', hu, rfl⟩ := encryptByte_ok_iff.mp ht
    rw [uPRGA_frame hu]
    exact .inr (.inl ⟨State.busy_eq_false ha, rfl, rfl, rfl, .inr (.inr (.inl ⟨hp, .inl ⟨d, htaken⟩⟩))⟩)
  | sched w rest hp hh hd hk ht =>
    have htaken := State.taken_of_decode (accepting_of_keyload hp) hh hd
    exact .inr (.inr (.inl ⟨hp, htaken, hk, rest, ht⟩))
  | raised w rest c hp hh hc ht =>
    subst ht
    exact .inr (.inr (.inr (.inr (.inr (.inr (.inr ⟨rfl, rfl, hc.row hp hh⟩))))))
  | fill moves hp hw ht =>
    subst ht
    have hecode : (uFILL (s.withHost moves)).ecode = s.ecode := by rw [uFILL_frame]; rfl
    rcases uFILL_sequencer (s.withHost moves) with ⟨hl, hphase, hcnt, hj⟩ | ⟨hl, hphase, hcnt, -⟩
    · exact .inr (.inr (.inr (.inr (.inl ⟨hp, cnt_eq_of_last hl rfl, hphase, hcnt, hj⟩))))
    · exact .inr (.inr (.inr (.inl ⟨s.busy_iff.mpr (.inl hp), hphase, hcnt, by rw [hp]; exact hl, hecode⟩)))
  | ksa moves hp hw ht =>
    have hecode : t.ecode = s.ecode := by rw [uKSA_frame ht]; rfl
    rcases uKSA_sequencer ht with ⟨hl, hphase, hcnt, hi, hj⟩ | ⟨hl, hphase, hcnt, -⟩
    · exact .inr (.inr (.inr (.inr (.inr (.inl ⟨hp, cnt_eq_of_last hl rfl, hphase, hcnt, hi, hj⟩)))))
    · exact .inr (.inr (.inr (.inl ⟨s.busy_iff.mpr (.inr (.inl hp)), hphase, hcnt, by rw [hp]; exact hl, hecode⟩)))
  | drop moves hp hw u w hu ht =>
    rcases drop_sequencer hu ht with ⟨hl, rfl⟩ | ⟨hl, rfl⟩
    · exact .inr (.inr (.inr (.inr (.inr (.inr (.inl ⟨hp, cnt_eq_of_last hl rfl, rfl, rfl⟩))))))
    · rw [uPRGA_frame hu]
      exact .inr (.inr (.inr (.inl ⟨s.busy_iff.mpr (.inr (.inr hp)), rfl, rfl, by rw [hp]; exact hl, rfl⟩)))

/-- A key byte sets `KTRUNC` or leaves it (rules R26, R63). -/
theorem ingestKeyByte_ktrunc {s t : State} {d : Byte} (h : ingestKeyByte s d = .ok t) :
    t.ktrunc = true ∨ t.ktrunc = s.ktrunc := by
  rcases ingestKeyByte_ok_iff.mp h with ⟨-, rfl⟩ | ⟨-, -, -, rfl⟩ | ⟨-, -, -, old, -, rfl⟩
  exacts [.inl rfl, .inr rfl, .inr rfl]

/-- Settles O27, by the cases of a step: each case's own equation says which fields it leaves, and its guards name the event of the
table for the others. -/
theorem stateIsWrittenOnlyAsTheAccessTableSays : Obligations.StateIsWrittenOnlyAsTheAccessTableSays := by
  intro s t hstep
  dsimp only
  cases step_cases hstep with
  | hardReset rest hh ht =>
    subst ht
    simp [State.resetStrikes_of_head hh]
  | rst w rest ha hh hd ht =>
    subst ht
    simp [State.taken_of_decode ha hh hd]
  | idle moves ha hw ht =>
    subst ht
    simp
  | stat w rest ha hh hd ht =>
    subst ht
    simp
  | ignored w rest hp hh hd ht =>
    subst ht
    simp
  | raised w rest c hp hh hc ht =>
    subst ht
    rcases hp with hp | hp <;> simp [hp]
  | keyb w rest d hp hh hd u hu ht =>
    have hkeyb : ∃ d, s.taken = some (encode (.keyb d)) := ⟨d, State.taken_of_decode (accepting_of_keyload hp) hh hd⟩
    have htrunc : u.ktrunc ≠ s.ktrunc → u.ktrunc = true := (ingestKeyByte_ktrunc hu).resolve_right
    rw [ht, ingestKeyByte_frame hu]
    simpa [hp, hkeyb] using fun hne => .inl (htrunc hne)
  | crypt w rest d hp hh hd ht =>
    have hcrypt : ∃ d, s.taken = some (encode (.crypt d)) := ⟨d, State.taken_of_decode (accepting_of_ready hp) hh hd⟩
    obtain ⟨u, w', hu, rfl⟩ := encryptByte_ok_iff.mp ht
    rw [uPRGA_frame hu]
    simp [hp, hcrypt]
  | sched w rest hp hh hd hk ht =>
    subst ht
    simp [hp, State.taken_of_decode (accepting_of_keyload hp) hh hd]
  | fill moves hp hw ht =>
    subst ht
    rw [uFILL_frame]
    rcases uFILL_sequencer (s.withHost moves) with ⟨hl, hphase, hcnt, hj⟩ | ⟨hl, hphase, hcnt, hj⟩
    · have hc : s.cnt = 65535 := cnt_eq_of_last hl rfl
      simp [hp, hc, hj]
    · simp [hp, hj, hphase]
  | ksa moves hp hw ht =>
    rw [uKSA_frame ht]
    rcases uKSA_sequencer ht with ⟨hl, hphase, hcnt, hi, hj⟩ | ⟨hl, hphase, hcnt, hi⟩
    · have hc : s.cnt = 65535 := cnt_eq_of_last hl rfl
      simp [hp, hc, hi, hphase]
    · simp [hp, hi, hphase]
  | drop moves hp hw u w hu ht =>
    rcases drop_sequencer hu ht with ⟨hl, rfl⟩ | ⟨hl, rfl⟩
    · have hc : s.cnt = 786431 := cnt_eq_of_last hl rfl
      rw [uPRGA_frame hu]
      simp [hp, hc]
    · rw [uPRGA_frame hu]
      simp [hp]

end Sys2Proof.Machine
end

section
/-! PROOFS. From a state that meets the invariant the core always has a next state (spec/20_memory.md rules R39, R51), and a busy core
reaches READY by its micro-steps, which is where the whole transaction ends too (spec/10_state.md rules R23, R24). -/

namespace Sys2Proof.Machine

/-! ### No access stops inside the invariant -/

/-- On a permutation uPRGA has a result. -/
theorem uPRGA_total {s : State} (h : s.S.IsPermutation) : ∃ u w, uPRGA s = .ok (u, w) := by
  obtain ⟨f, hf, -⟩ := h.holds
  have hswap := (hf.swap (add16 s.i 1) (add16 (f (add16 s.i 1)) s.j)).2
  exact ⟨_, _, uPRGA_ok_iff.mpr ⟨_, _, hf _, hf _, hswap _, rfl⟩⟩

/-- In KSA uKSA has a result: `S` is a permutation, and `x mod N` is the index of a key word written in the session. -/
theorem State.Inv.uKSA_total {s : State} (h : s.Inv) (hp : s.phase = .ksa) : ∃ t, uKSA s = .ok t := by
  obtain ⟨f, hf, -⟩ := (h.permuted (.inl hp)).holds
  have hcount := keyWordCount_bounds s.klen
  have hkeyed : 1 ≤ s.klen.toNat := h.keyed (by simp [hp]) (by simp [hp])
  have hpos : 0 < keyWordCount s.klen := by omega
  have hmod := Nat.mod_lt (loopIndex s.cnt).toNat hpos
  have hlt : (loopIndex s.cnt).toNat % keyWordCount s.klen < Config.stateSize :=
    lt_of_le_of_lt (Nat.mod_le _ _) (word_index_lt _)
  obtain ⟨k, hk⟩ := h.keyWritten _ hmod
  exact ⟨_, uKSA_ok_iff.mpr ⟨_, k, _, hpos.ne', hf _, hlt, hk, hf _, rfl⟩⟩

/-- Ingesting a key byte has a result: the word of a second byte was written by the first. -/
theorem State.Inv.ingestKeyByte_total {s : State} (h : s.Inv) (d : Byte) : ∃ t, ingestKeyByte s d = .ok t := by
  by_cases hfull : s.klen.toNat = Config.keyMaxBytes
  · exact ⟨_, ingestKeyByte_ok_iff.mpr (.inl ⟨hfull, rfl⟩)⟩
  · have hlt : s.klen.toNat < 131072 := lt_of_le_of_ne h.klenBound hfull
    have hindex : keyByteIndex s.klen < Config.stateSize := by simp only [keyByteIndex, Config.stateSize]; omega
    cases hf : firstOfPair s.klen with
    | true => exact ⟨_, ingestKeyByte_ok_iff.mpr (.inr (.inl ⟨hfull, hf, hindex, rfl⟩))⟩
    | false =>
      obtain ⟨old, hold⟩ := h.keyWritten _ (keyWords_of_second hlt hf).1
      exact ⟨_, ingestKeyByte_ok_iff.mpr (.inr (.inr ⟨hfull, hf, hindex, old, hold, rfl⟩))⟩

/-- The micro-step has a next state. -/
theorem State.Inv.microStep_total {s : State} (h : s.Inv) : ∃ t, microStep s = .next t := by
  cases hp : s.phase with
  | fill => exact ⟨_, microStep_fill hp⟩
  | ksa =>
    obtain ⟨t, ht⟩ := h.uKSA_total hp
    exact ⟨t, (microStep_ksa_iff hp).mpr ht⟩
  | drop =>
    obtain ⟨u, w, hu⟩ := uPRGA_total (h.permuted (.inr (.inl hp)))
    exact ⟨_, (microStep_drop_iff hp).mpr ⟨u, w, hu, rfl⟩⟩
  | keyload | ready | error => exact ⟨s, microStep_idle (by rw [hp]; rfl)⟩

/-- In a phase that takes commands the answer of ERROR or the command itself is the next state. -/
theorem unlessError_total {s : State} {run : Result} (ha : s.phase.accepting = true) (hrun : ∃ t, run = .next t) :
    ∃ t, unlessError s run = .next t := by
  rw [unlessError, whenAccepting_accepting ha]
  split
  · exact ⟨_, rfl⟩
  · exact hrun

/-- A command of one phase has a next state in every phase that takes commands, if it has one in its own. -/
theorem onlyIn_total {s : State} {p : Phase} {run : Result} (ha : s.phase.accepting = true)
    (hrun : s.phase = p → ∃ t, run = .next t) : ∃ t, onlyIn p s run = .next t := by
  refine unlessError_total ha ?_
  split
  · exact hrun ‹_›
  · exact ⟨_, rfl⟩

/-- A command word has a next state in every phase that takes commands. -/
theorem State.Inv.takeCommand_total {s : State} (h : s.Inv) (ha : s.phase.accepting = true) (w : Word) :
    ∃ t, takeCommand w s = .next t := by
  unfold takeCommand
  cases decode w with
  | error e => exact unlessError_total ha ⟨_, rfl⟩
  | ok i =>
    cases i with
    | rst => exact ⟨_, whenAccepting_accepting ha _⟩
    | stat => exact ⟨_, whenAccepting_accepting ha _⟩
    | keyb d =>
      refine onlyIn_total ha fun _ => ?_
      obtain ⟨t, ht⟩ := h.ingestKeyByte_total d
      exact ⟨_, by rw [ht]; rfl⟩
    | sched =>
      refine onlyIn_total ha fun _ => ?_
      split <;> exact ⟨_, rfl⟩
    | crypt d =>
      refine onlyIn_total ha fun hp => ?_
      obtain ⟨u, w, hu⟩ := uPRGA_total (h.permuted (.inr (.inr hp)))
      exact ⟨_, outcomeOf_next_iff.mpr (encryptByte_ok_iff.mpr ⟨u, w, hu, rfl⟩)⟩

/-- Every step has a next state. -/
theorem State.Inv.step_total {s : State} (h : s.Inv) : ∃ t, step s = .next t := by
  rcases host_cases s with ⟨rest, hh⟩ | ⟨moves, hw⟩ | ⟨w, rest, ha, hh⟩
  · exact ⟨_, step_reset hh⟩
  · rw [step_waits hw]; exact (h.withHost moves).microStep_total
  · rw [step_takes ha hh]; exact (h.withHost rest).takeCommand_total ha w

/-! ### A busy core reaches READY -/

/-- The micro-steps that are left of SCHED (rules R23, R110). -/
def State.remaining (s : State) : Nat :=
  match s.phase with
  | .fill => (Config.fillSteps - s.cnt.toNat) + Config.ksaSteps + Config.dropSteps
  | .ksa => (Config.ksaSteps - s.cnt.toNat) + Config.dropSteps
  | .drop => Config.dropSteps - s.cnt.toNat
  | .keyload => 0
  | .ready => 0
  | .error => 0

/-- None are left in a phase that takes commands. -/
theorem State.remaining_accepting {s : State} (h : s.phase.accepting = true) : s.remaining = 0 := by
  rcases (Phase.accepting_iff _).mp h with hp | hp | hp <;> simp [State.remaining, hp]

/-- Never more are left than SCHED makes in all. -/
theorem State.remaining_le (s : State) : s.remaining ≤ Config.scheduleSteps := by
  unfold State.remaining Config.scheduleSteps
  split <;> omega

/-- What is left in FILL. -/
theorem State.remaining_fill {s : State} (hp : s.phase = .fill) :
    s.remaining = (65536 - s.cnt.toNat) + 65536 + 786432 := by
  simp [State.remaining, hp, Config.fillSteps, Config.ksaSteps, Config.dropSteps]

/-- What is left in KSA. -/
theorem State.remaining_ksa {s : State} (hp : s.phase = .ksa) : s.remaining = (65536 - s.cnt.toNat) + 786432 := by
  simp [State.remaining, hp, Config.ksaSteps, Config.dropSteps]

/-- What is left in DROP. -/
theorem State.remaining_drop {s : State} (hp : s.phase = .drop) : s.remaining = 786432 - s.cnt.toNat := by
  simp [State.remaining, hp, Config.dropSteps]

/-- Each micro-step of a busy core leaves one fewer. -/
theorem State.Inv.remaining_microStep {s t : State} (h : s.Inv) (hb : s.busy = true) (ht : microStep s = .next t) :
    t.remaining + 1 = s.remaining := by
  have hzero : (0 : BitVec 20).toNat = 0 := rfl
  rcases s.busy_iff.mp hb with hp | hp | hp
  · have hrange : s.cnt.toNat < 65536 := h.cnt_lt hp
    rw [microStep_fill hp] at ht
    cases ht
    rw [State.remaining_fill hp]
    rcases uFILL_sequencer s with ⟨hl, hphase, hcnt, -⟩ | ⟨-, hphase, hcnt, -⟩
    · have hl : s.cnt.toNat + 1 = 65536 := hl
      rw [State.remaining_ksa hphase, hcnt, hzero]; omega
    · rw [State.remaining_fill (hphase.trans hp), hcnt, cnt_succ_toNat (by omega)]; omega
  · have hrange : s.cnt.toNat < 65536 := h.cnt_lt hp
    rw [State.remaining_ksa hp]
    rcases uKSA_sequencer ((microStep_ksa_iff hp).mp ht) with ⟨hl, hphase, hcnt, -⟩ | ⟨-, hphase, hcnt, -⟩
    · have hl : s.cnt.toNat + 1 = 65536 := hl
      rw [State.remaining_drop hphase, hcnt, hzero]; omega
    · rw [State.remaining_ksa (hphase.trans hp), hcnt, cnt_succ_toNat (by omega)]; omega
  · have hrange : s.cnt.toNat < 786432 := h.cnt_lt hp
    obtain ⟨u, w, hu, hut⟩ := (microStep_drop_iff hp).mp ht
    have hcnt : u.cnt = s.cnt := by rw [uPRGA_frame hu]
    have hphase : u.phase = .drop := by rw [uPRGA_frame hu]; exact hp
    rw [State.remaining_drop hp]
    rcases drop_sequencer hu hut with ⟨hl, rfl⟩ | ⟨-, rfl⟩
    · have hl : s.cnt.toNat + 1 = 786432 := hl
      rw [State.remaining_accepting rfl]; omega
    · rw [State.remaining_drop (s := u.count) hphase, State.count_cnt, hcnt, cnt_succ_toNat hrange]; omega

/-- A core with no micro-step left takes commands. -/
theorem State.Inv.accepting_of_remaining {s : State} (h : s.Inv) (h0 : s.remaining = 0) : s.phase.accepting = true := by
  by_contra ha
  obtain ⟨t, ht⟩ := h.microStep_total
  have := h.remaining_microStep (by simpa [State.busy] using ha) ht
  omega

/-- The moves of the host alone decide whether a hard reset is to come. -/
theorem State.resetPending_congr {s t : State} (h : t.host = s.host) : t.resetPending = s.resetPending := by
  unfold State.resetPending; rw [h]

/-- A core that takes commands has settled. -/
theorem settle_accepting {s : State} (h : s.phase.accepting = true) (n : Nat) : settle n s = .next s := by
  cases n with
  | zero => rfl
  | succ n => rw [settle, if_pos h]

/-- A busy core settles where it settles after its micro-step. -/
theorem settle_busy {s t : State} (h : s.busy = true) (ht : microStep s = .next t) (n : Nat) :
    settle (n + 1) s = settle n t := by
  have ha : ¬ s.phase.accepting = true := by simpa [State.busy] using h
  rw [settle, if_neg ha, ht]

/-- Where the core settles is where its remaining steps take it, with no hard reset to come: both make the same micro-steps. -/
theorem State.Inv.settles {s : State} (h : s.Inv) (hr : s.resetPending = false) {n : Nat} (hn : s.remaining ≤ n) :
    ∃ t, settle n s = .next t ∧ runSteps s.remaining s = .next t ∧ t.phase.accepting = true ∧ t.host = s.host := by
  induction n generalizing s with
  | zero =>
    have ha := h.accepting_of_remaining (Nat.le_zero.mp hn)
    exact ⟨s, rfl, by rw [State.remaining_accepting ha]; rfl, ha, rfl⟩
  | succ n ih =>
    cases ha : s.phase.accepting with
    | true => exact ⟨s, settle_accepting ha _, by rw [State.remaining_accepting ha]; rfl, ha, rfl⟩
    | false =>
      have hb : s.busy = true := by simp [State.busy, ha]
      obtain ⟨u, hu⟩ := h.microStep_total
      have hstep : step s = .next u := step_busy hb hr ▸ hu
      have hleft := h.remaining_microStep hb hu
      have hhost := microStep_host hu
      obtain ⟨t, hsettle, hrun, hacc, ht⟩ := ih (everyStepKeepsTheInvariant s u h hstep)
        (State.resetPending_congr hhost ▸ hr) (by omega)
      exact ⟨t, settle_busy hb hu n ▸ hsettle, by rw [← hleft, runSteps_succ _ hstep, hrun], hacc, ht.trans hhost⟩

/-- A command that is taken leaves the host the moves behind it. -/
theorem step_takes_host {s t : State} {w : Word} {rest : List HostMove} (ha : s.phase.accepting = true)
    (hh : s.host = .command w :: rest) (h : step s = .next t) : t.host = rest := by
  have htaken := State.taken_of_command ha hh
  have hwaits {moves : List HostMove} {p : Prop} (hw : s.Waits moves) : p := by
    rw [hw.taken_eq_none] at htaken; cases htaken
  have hrest {v : Word} {moves : List HostMove} (hm : s.host = .command v :: moves) : moves = rest := by
    rw [hh] at hm; exact (List.cons.inj hm).2.symm
  cases step_cases h with
  | hardReset moves hm _ => rw [hh] at hm; cases hm
  | idle _ _ hw _ | fill _ _ hw _ | ksa _ _ hw _ | drop _ _ hw _ _ _ _ => exact hwaits hw
  | rst _ moves _ hm _ ht | stat _ moves _ hm _ ht | ignored _ moves _ hm _ ht => rw [ht]; exact hrest hm
  | raised _ moves _ _ hm _ ht | sched _ moves _ hm _ _ ht => rw [ht]; exact hrest hm
  | keyb _ moves _ _ hm _ u hu ht => rw [ht, ingestKeyByte_frame hu]; exact hrest hm
  | crypt _ moves _ _ hm _ ht =>
    obtain ⟨u, w', hu, rfl⟩ := encryptByte_ok_iff.mp ht
    rw [uPRGA_frame hu]; exact hrest hm

/-- Settles O28: the step takes the command, and what follows settles by the same micro-steps. -/
theorem stepsReachWhatTheTransactionLeaves : Obligations.StepsReachWhatTheTransactionLeaves := by
  intro s w rest h ha hh hr
  obtain ⟨u, hu⟩ := h.step_total
  have htake : takeCommand w (s.withHost rest) = .next u := step_takes ha hh ▸ hu
  have hhost : u.host = rest := step_takes_host ha hh hu
  have hur : u.resetPending = false := State.resetPending_congr (s := s.withHost rest) hhost ▸ hr
  obtain ⟨t, hsettle, hrun, hacc, ht⟩ :=
    (everyStepKeepsTheInvariant s u h hu).settles hur u.remaining_le
  refine ⟨t, by rw [transact, htake]; exact hsettle, hacc, ht.trans hhost, u.remaining + 1, ?_, ?_⟩
  · exact Nat.succ_le_succ u.remaining_le
  · rw [runSteps_succ _ hu, hrun]

end Sys2Proof.Machine
end

section
/-! PROOFS. What `S` and `K` hold at reset reaches no response (spec/10_state.md rule R33, spec/20_memory.md rule R51). The idea: a step
never reads a word the session has not written, so a state that lists more words makes the same step and still lists more. A run from
reset with empty memories never stops, by the invariant; every run from reset with other contents follows it. -/

namespace Sys2Proof.Machine

/-- Every word written in the first memory is written in the second, with the same value. -/
def Memory.Sub (m n : Memory) : Prop := ∀ (a : Nat) (v : Word), m.read? a = some v → n.read? a = some v

/-- A memory with no word written. -/
theorem Memory.Sub.nil (n : Memory) : Memory.Sub [] n := fun _ _ h => nomatch h

/-- The same write in both memories. -/
theorem Memory.Sub.write {m n : Memory} (h : m.Sub n) (a : Nat) (w : Word) : Memory.Sub (m.write a w) (n.write a w) := by
  intro b v hb
  rw [Memory.read?_write] at hb ⊢
  split at hb
  · rwa [if_pos ‹_›]
  · rw [if_neg ‹_›]; exact h b v hb

/-- The state with other memories. -/
def State.withMemories (s : State) (m n : Memory) : State := { s with S := m, K := n }

/-- The memories do not decide which micro-step is the last of its phase. -/
theorem State.withMemories_lastOf (s : State) (m n : Memory) (steps : Nat) :
    (s.withMemories m n).lastOf steps = s.lastOf steps := rfl

/-! ### Each micro-operation with more words written -/

/-- uFILL writes the same word. -/
theorem uFILL_withMemories (s : State) (m n : Memory) :
    uFILL (s.withMemories m n) = (uFILL s).withMemories (m.write (loopIndex s.cnt).toNat (loopIndex s.cnt)) n := by
  rw [uFILL_eq, uFILL_eq, State.withMemories_lastOf]
  split <;> rfl

/-- uKSA reads and exchanges the same words. -/
theorem uKSA_withMemories {s t : State} {m n : Memory} (hS : s.S.Sub m) (hK : s.K.Sub n) (h : uKSA s = .ok t) :
    ∃ m', uKSA (s.withMemories m n) = .ok (t.withMemories m' n) ∧ t.S.Sub m' := by
  obtain ⟨a, k, b, h0, ha, hlt, hk, hb, rfl⟩ := uKSA_ok_iff.mp h
  refine ⟨(m.write (loopIndex s.cnt).toNat b).write (add16Three s.j a k).toNat a,
    uKSA_ok_iff.mpr ⟨a, k, b, h0, hS _ _ ha, hlt, hK _ _ hk, hS _ _ hb, ?_⟩, ?_⟩
  · rw [State.withMemories_lastOf]
    split <;> rfl
  · split <;> exact (hS.write _ _).write _ _

/-- uPRGA reads and exchanges the same words, and emits the same. -/
theorem uPRGA_withMemories {s t : State} {m : Memory} {w : Word} (hS : s.S.Sub m) (h : uPRGA s = .ok (t, w))
    (n : Memory) : ∃ m', uPRGA (s.withMemories m n) = .ok (t.withMemories m' n, w) ∧ t.S.Sub m' := by
  obtain ⟨a, b, ha, hb, hw, rfl⟩ := uPRGA_ok_iff.mp h
  have hsub := (hS.write (add16 s.i 1).toNat b).write (add16 a s.j).toNat a
  exact ⟨_, uPRGA_ok_iff.mpr ⟨a, b, hS _ _ ha, hS _ _ hb, hsub _ _ hw, rfl⟩, hsub⟩

/-- A key byte goes to the same word. -/
theorem ingestKeyByte_withMemories {s t : State} {n : Memory} {d : Byte} (hK : s.K.Sub n) (m : Memory)
    (h : ingestKeyByte s d = .ok t) :
    ∃ n', ingestKeyByte (s.withMemories m n) d = .ok (t.withMemories m n') ∧ t.K.Sub n' := by
  rcases ingestKeyByte_ok_iff.mp h with ⟨hfull, rfl⟩ | ⟨hfull, hfirst, ha, rfl⟩ | ⟨hfull, hsecond, ha, old, hold, rfl⟩
  · exact ⟨n, ingestKeyByte_ok_iff.mpr (.inl ⟨hfull, rfl⟩), hK⟩
  · exact ⟨_, ingestKeyByte_ok_iff.mpr (.inr (.inl ⟨hfull, hfirst, ha, rfl⟩)), hK.write _ _⟩
  · exact ⟨_, ingestKeyByte_ok_iff.mpr (.inr (.inr ⟨hfull, hsecond, ha, old, hK _ _ hold, rfl⟩)), hK.write _ _⟩

/-- The memories do not decide which error a command raises. -/
theorem Raises.withMemories {s : State} {w : Word} {c : Cause} (h : Raises s w c) (m n : Memory) :
    Raises (s.withMemories m n) w c := by
  cases h with
  | illegal e hd => exact .illegal e hd
  | keybInReady d hd hp => exact .keybInReady d hd hp
  | schedInReady hd hp => exact .schedInReady hd hp
  | cryptInKeyload d hd hp => exact .cryptInKeyload d hd hp
  | emptyKey hd hp hk => exact .emptyKey hd hp hk

/-- A step with more words written makes the same step. -/
theorem step_withMemories {s t : State} {m n : Memory} (hS : s.S.Sub m) (hK : s.K.Sub n) (h : step s = .next t) :
    ∃ m' n', step (s.withMemories m n) = .next (t.withMemories m' n') ∧ t.S.Sub m' ∧ t.K.Sub n' := by
  cases step_cases h with
  | hardReset rest hh ht => subst ht; exact ⟨[], [], step_of_case (.hardReset rest hh rfl), .nil _, .nil _⟩
  | rst w rest ha hh hd ht => subst ht; exact ⟨[], [], step_of_case (.rst w rest ha hh hd rfl), .nil _, .nil _⟩
  | idle moves ha hw ht => subst ht; exact ⟨m, n, step_of_case (.idle moves ha hw rfl), hS, hK⟩
  | stat w rest ha hh hd ht => subst ht; exact ⟨m, n, step_of_case (.stat w rest ha hh hd rfl), hS, hK⟩
  | ignored w rest hp hh hd ht => subst ht; exact ⟨m, n, step_of_case (.ignored w rest hp hh hd rfl), hS, hK⟩
  | raised w rest c hp hh hc ht =>
    subst ht; exact ⟨m, n, step_of_case (.raised w rest c hp hh (hc.withMemories m n) rfl), hS, hK⟩
  | sched w rest hp hh hd hk ht => subst ht; exact ⟨m, n, step_of_case (.sched w rest hp hh hd hk rfl), hS, hK⟩
  | fill moves hp hw ht =>
    subst ht
    refine ⟨_, n, step_of_case (.fill moves hp hw (uFILL_withMemories (s.withHost moves) m n).symm), ?_, ?_⟩
    · rw [uFILL_S]; exact hS.write _ _
    · rw [uFILL_frame]; exact hK
  | ksa moves hp hw ht =>
    obtain ⟨m', hrun, hS'⟩ := uKSA_withMemories (s := s.withHost moves) hS hK ht
    refine ⟨m', n, step_of_case (.ksa moves hp hw hrun), hS', ?_⟩
    rw [uKSA_frame ht]; exact hK
  | drop moves hp hw u w hu ht =>
    obtain ⟨m', hrun, hS'⟩ := uPRGA_withMemories (s := s.withHost moves) hS hu n
    have hK' : u.K.Sub n := by rw [uPRGA_frame hu]; exact hK
    have hlast : t.withMemories m' n = if (u.withMemories m' n).lastOf Config.dropSteps then
        ((u.withMemories m' n).goto .ready).respond 0 else (u.withMemories m' n).count := by
      rw [ht, State.withMemories_lastOf]; split <;> rfl
    refine ⟨m', n, step_of_case (.drop moves hp hw _ w hrun hlast), ?_⟩
    rcases drop_sequencer hu ht with ⟨-, rfl⟩ | ⟨-, rfl⟩ <;> exact ⟨hS', hK'⟩
  | keyb w rest d hp hh hd u hu ht =>
    obtain ⟨n', hrun, hK'⟩ := ingestKeyByte_withMemories (s := s.withHost rest) hK m hu
    have hS' : u.S.Sub m := by rw [ingestKeyByte_frame hu]; exact hS
    subst ht
    exact ⟨m, n', step_of_case (.keyb w rest d hp hh hd _ hrun rfl), hS', hK'⟩
  | crypt w rest d hp hh hd ht =>
    obtain ⟨u, w', hu, rfl⟩ := encryptByte_ok_iff.mp ht
    obtain ⟨m', hrun, hS'⟩ := uPRGA_withMemories (s := s.withHost rest) hS hu n
    have hK' : u.K.Sub n := by rw [uPRGA_frame hu]; exact hK
    exact ⟨m', n, step_of_case (.crypt w rest d hp hh hd (encryptByte_ok_iff.mpr ⟨_, w', hrun, rfl⟩)), hS', hK'⟩

/-- A run with more words written makes the same steps. -/
theorem runSteps_withMemories {s t : State} {k : Nat} {m n : Memory} (hS : s.S.Sub m) (hK : s.K.Sub n)
    (h : runSteps k s = .next t) : ∃ m' n', runSteps k (s.withMemories m n) = .next (t.withMemories m' n') := by
  induction k generalizing s m n with
  | zero => cases h; exact ⟨m, n, rfl⟩
  | succ k ih =>
    obtain ⟨u, hu, ht⟩ := runSteps_succ_next h
    obtain ⟨m', n', hstep, hS', hK'⟩ := step_withMemories hS hK hu
    rw [runSteps_succ k hstep]
    exact ih hS' hK' ht

/-- A run from a state that meets the invariant goes on for ever. -/
theorem State.Inv.runSteps_total {s : State} (h : s.Inv) (k : Nat) : ∃ t, runSteps k s = .next t := by
  obtain ⟨t, ht, -⟩ := runSteps_of_forall (P := fun _ s => s.Inv) (n := k) h (fun _ _ s hs => by
    obtain ⟨u, hu⟩ := hs.step_total
    exact ⟨u, hu, everyStepKeepsTheInvariant s u hs hu⟩) k le_rfl
  exact ⟨t, ht⟩

/-- Settles O20: both runs follow the run from reset with empty memories, which never stops. -/
theorem resetContentsReachNoResponse : Obligations.ResetContentsReachNoResponse := by
  intro k moves S₁ K₁ S₂ K₂
  have hinv : (State.reset.withHost moves).Inv :=
    State.resetCore_inv (State.reset.withHost moves)
  obtain ⟨t, ht⟩ := hinv.runSteps_total k
  obtain ⟨m₁, n₁, h₁⟩ := runSteps_withMemories (m := S₁) (n := K₁) (.nil _) (.nil _) ht
  obtain ⟨m₂, n₂, h₂⟩ := runSteps_withMemories (m := S₂) (n := K₂) (.nil _) (.nil _) ht
  exact ⟨_, _, h₁, h₂, rfl⟩

end Sys2Proof.Machine
end

section
/-! PROOFS. The memories (spec/20_memory.md): the swap of rule R43, whose result `Memory.swap_ok_iff` gives as two writes, and the
absence of stops inside the invariant (rules R39, R51). -/

namespace Sys2Proof.Machine

/-! ### Reads after an exchange of two words -/

/-- The first of the two words holds what the second held, also where the second write is to the same word. -/
theorem Memory.read?_exchange_first {m : Memory} {a b : Nat} {v w : Word} (ha : m.read? a = some v) (hb : m.read? b = some w) :
    ((m.write a w).write b v).read? a = some w := by
  by_cases hab : a = b
  · subst hab
    obtain rfl : v = w := Option.some.inj (ha.symm.trans hb)
    exact Memory.read?_write_self _ a v
  · rw [Memory.read?_write_ne _ v hab, Memory.read?_write_self]

/-- Every word but the two reads as before. -/
theorem Memory.read?_exchange_ne (m : Memory) {a b c : Nat} (v w : Word) (hca : c ≠ a) (hcb : c ≠ b) :
    ((m.write a w).write b v).read? c = m.read? c := by
  rw [Memory.read?_write_ne _ v hcb, Memory.read?_write_ne _ w hca]

/-- Writing back what a word holds changes no read; the memory need not be canonical (compare `Memory.write_read?`). -/
theorem Memory.read?_write_back {m : Memory} {a : Nat} {v : Word} (ha : m.read? a = some v) (c : Nat) :
    (m.write a v).read? c = m.read? c := by
  rw [Memory.read?_write]
  split
  · next hca => rw [hca, ha]
  · rfl

/-! ### The statements -/

/-- Settles O18: every step has a next state, so it is neither a fault nor a refusal. -/
theorem noStepStopsInsideTheInvariant : Obligations.NoStepStopsInsideTheInvariant :=
  fun _ h => h.step_total

/-- Settles O9: the swap is two writes, and with `a = b` both write back the word that was read. -/
theorem swapExchangesTwoWords : Obligations.SwapExchangesTwoWords := by
  intro m a b v w ha hb
  refine ⟨_, Memory.swap_ok_iff.mpr ⟨v, w, ha, hb, rfl⟩, Memory.read?_exchange_first ha hb, Memory.read?_write_self _ _ v,
    fun c => Memory.read?_exchange_ne m v w, ?_, ?_⟩
  · rintro rfl c
    obtain rfl : v = w := Option.some.inj (ha.symm.trans hb)
    rw [Memory.read?_write_back (Memory.read?_write_self m a.toNat v), Memory.read?_write_back ha]
  · rintro rfl hwf
    obtain rfl : v = w := Option.some.inj (ha.symm.trans hb)
    rw [Memory.write_read? hwf ha, Memory.write_read? hwf ha]

end Sys2Proof.Machine
end

section
/-! PROOFS. The encoding (spec/30_encoding.md rules R53, R56, R57): the fields of an assembled word, from them the round trip between
commands and words, and from the round trip what the rows of the opcode table select. -/

namespace Sys2Proof

/-! ### The fields of an assembled word (rule R53) -/

/-- A bit of an assembled word: bits 7..0 are `DATA`, bits 11..8 `ZERO`, the bits above `OP`. -/
theorem commandWord_bit (op zero : BitVec 4) (data : Byte) (n : Nat) :
    (commandWord op zero data).getLsbD n =
      if n < 8 then data.getLsbD n else if n - 8 < 4 then zero.getLsbD (n - 8) else op.getLsbD (n - 8 - 4) := by
  have hlow : (commandWord op zero data).getLsbD n =
      if n < 8 then data.getLsbD n else BitVec.getLsbD (w := 8) (op ++ zero) (n - 8) := BitVec.getLsbD_append
  have hhigh : BitVec.getLsbD (w := 8) (op ++ zero) (n - 8) =
      if n - 8 < 4 then zero.getLsbD (n - 8) else op.getLsbD (n - 8 - 4) := BitVec.getLsbD_append
  rw [hlow, hhigh]

/-- The `OP` field of an assembled word. -/
@[simp] theorem fieldOp_commandWord (op zero : BitVec 4) (data : Byte) : fieldOp (commandWord op zero data) = op := by
  apply BitVec.eq_of_getLsbD_eq
  intro n hn
  have h8 : ¬ 12 + n < 8 := by omega
  have h12 : ¬ 12 + n - 8 < 4 := by omega
  have hidx : 12 + n - 8 - 4 = n := by omega
  simp only [fieldOp, BitVec.getLsbD_extractLsb', hn, commandWord_bit, h8, h12, hidx, decide_true, Bool.true_and, if_false]

/-- The `ZERO` field of an assembled word. -/
@[simp] theorem fieldZero_commandWord (op zero : BitVec 4) (data : Byte) :
    fieldZero (commandWord op zero data) = zero := by
  apply BitVec.eq_of_getLsbD_eq
  intro n hn
  simp [fieldZero, commandWord_bit, hn]

/-- The `DATA` field of an assembled word. -/
@[simp] theorem fieldData_commandWord (op zero : BitVec 4) (data : Byte) :
    fieldData (commandWord op zero data) = data := by
  apply BitVec.eq_of_getLsbD_eq
  intro n hn
  simp [fieldData, commandWord_bit, hn]

/-! ### The round trip -/

/-- An assembled word with `ZERO` = 0 decodes by its operation code and its data byte. -/
theorem decode_commandWord (op : BitVec 4) (data : Byte) : decode (commandWord op 0 data) = decodeOp op data := by
  rw [decode_of_zero (fieldZero_commandWord op 0 data), fieldOp_commandWord, fieldData_commandWord]

/-- Every command decodes from its word. -/
theorem decode_encode (i : Instr) : decode (encode i) = .ok i := by
  cases i <;> exact decode_commandWord _ _

/-- No two commands share a word. -/
theorem encode_injective {i i' : Instr} (h : encode i = encode i') : i = i' := by
  have hd : decode (encode i) = .ok i' := h ▸ decode_encode i'
  exact Except.ok.inj ((decode_encode i).symm.trans hd)

/-- Every command term is well formed: its operand's type holds exactly the bytes (rule R55). -/
theorem Instr.wf_eq_true (i : Instr) : i.wf = true := by
  cases i <;> rfl

/-- Settles O12: a command decodes from its word by the fields of that word; a word that decodes is put together again from its
fields. -/
theorem decodeInvertsEncode : Obligations.DecodeInvertsEncode :=
  ⟨fun i _ => decode_encode i, fun _ i h => ⟨encode_of_decode h, i.wf_eq_true⟩⟩

/-! ### The rows of the opcode table (rule R56) -/

/-- The word of a command is legal, selects the command's own row, and has `ZERO` = 0. -/
theorem encodingLegal (i : Instr) : Laws.EncodingLegal.Statement i := by
  cases i with
  | rst => exact Laws.EncodingLegal.rst
  | keyb data => exact Laws.EncodingLegal.keyb data
  | sched => exact Laws.EncodingLegal.sched
  | crypt data => exact Laws.EncodingLegal.crypt data
  | stat => exact Laws.EncodingLegal.stat

/-- A row with the mask 0xFFFF selects its pattern alone. -/
theorem selects_full_mask {p w : Word} (h : OpcodeRow.selects ⟨p, 0xFFFF⟩ w = true) : w = p := by
  have hand : w &&& 0xFFFF = p := by simpa [OpcodeRow.selects] using h
  rw [← hand]
  exact (BitVec.and_allOnes (x := w)).symm

/-- The mask 0xFF00 keeps `OP`. -/
theorem fieldOp_and_high_mask (w : Word) : fieldOp (w &&& 0xFF00) = fieldOp w := by
  have hmask : BitVec.extractLsb' 12 4 (0xFF00 : Word) = BitVec.allOnes 4 := by decide
  rw [fieldOp, BitVec.extractLsb'_and, hmask, BitVec.and_allOnes, fieldOp]

/-- The mask 0xFF00 keeps `ZERO`. -/
theorem fieldZero_and_high_mask (w : Word) : fieldZero (w &&& 0xFF00) = fieldZero w := by
  have hmask : BitVec.extractLsb' 8 4 (0xFF00 : Word) = BitVec.allOnes 4 := by decide
  rw [fieldZero, BitVec.extractLsb'_and, hmask, BitVec.and_allOnes, fieldZero]

/-- A row with the mask 0xFF00 fixes `OP` and `ZERO` and leaves `DATA` free. -/
theorem selects_high_mask {op : BitVec 4} {p w : Word} (hp : p = commandWord op 0 0)
    (h : OpcodeRow.selects ⟨p, 0xFF00⟩ w = true) : w = commandWord op 0 (fieldData w) := by
  have hand : w &&& 0xFF00 = commandWord op 0 0 := by simpa [OpcodeRow.selects, hp] using h
  have hop : fieldOp w = op := by rw [← fieldOp_and_high_mask, hand, fieldOp_commandWord]
  have hzero : fieldZero w = 0 := by rw [← fieldZero_and_high_mask, hand, fieldZero_commandWord]
  rw [← hop, ← hzero, commandWord_fields]

/-- The words a row selects are the words of the commands of that row. -/
theorem selects_opcodeRow_iff {i : Instr} {w : Word} :
    (opcodeRow i).selects w = true ↔ ∃ i', opcodeRow i' = opcodeRow i ∧ w = encode i' := by
  constructor
  · intro h
    cases i with
    | rst => exact ⟨.rst, rfl, selects_full_mask h⟩
    | keyb data => exact ⟨.keyb (fieldData w), rfl, selects_high_mask (by decide) h⟩
    | sched => exact ⟨.sched, rfl, selects_full_mask h⟩
    | crypt data => exact ⟨.crypt (fieldData w), rfl, selects_high_mask (by decide) h⟩
    | stat => exact ⟨.stat, rfl, selects_full_mask h⟩
  · rintro ⟨i', hrow, rfl⟩
    obtain ⟨-, hsel, -⟩ := encodingLegal i'
    exact hrow ▸ hsel

/-- A word that decodes is legal by rule R57's formula. -/
theorem legal_of_decode {w : Word} {i : Instr} (h : decode w = .ok i) : legal w = true := by
  obtain ⟨hlegal, -, -⟩ := encodingLegal i
  exact encode_of_decode h ▸ hlegal

/-- The decoder accepts exactly the legal words. -/
theorem exists_decode_iff_legal (w : Word) : (∃ i, decode w = .ok i) ↔ legal w = true :=
  ⟨fun ⟨_, h⟩ => legal_of_decode h, exists_decode_of_legal⟩

/-- The legal words are the words that some row selects. -/
theorem legal_iff_exists_row (w : Word) : legal w = true ↔ ∃ i, (opcodeRow i).selects w = true := by
  constructor
  · intro h
    obtain ⟨i, hi⟩ := exists_decode_of_legal h
    exact ⟨i, selects_opcodeRow_iff.mpr ⟨i, rfl, encode_of_decode hi⟩⟩
  · rintro ⟨i, hi⟩
    obtain ⟨i', -, rfl⟩ := selects_opcodeRow_iff.mp hi
    exact legal_of_decode (decode_encode i')

/-- Two rows that select the same word are one row: the word is the word of one command only. -/
theorem opcodeRow_eq_of_selects {i i' : Instr} {w : Word} (h : (opcodeRow i).selects w = true)
    (h' : (opcodeRow i').selects w = true) : opcodeRow i = opcodeRow i' := by
  obtain ⟨k, hk, hw⟩ := selects_opcodeRow_iff.mp h
  obtain ⟨k', hk', hw'⟩ := selects_opcodeRow_iff.mp h'
  obtain rfl : k = k' := encode_injective (hw.symm.trans hw')
  exact hk.symm.trans hk'

/-- Settles O11: the decoder against the formula, the formula against the table, and the table's rows against each other. -/
theorem legalWordsAreTheWordsOfTheTable : Obligations.LegalWordsAreTheWordsOfTheTable :=
  fun w => ⟨exists_decode_iff_legal w, legal_iff_exists_row w, fun _ _ => opcodeRow_eq_of_selects⟩

/-! ### The pseudo-commands (rule R61) -/

/-- The literal of a byte stands for that byte. -/
@[simp] theorem byteLiteral_toNat (b : Byte) : byteLiteral b.toNat = b := BitVec.ofNat_toNat 8 b

/-- The literals of a byte sequence stand for that sequence. -/
@[simp] theorem map_byteLiteral_toNat (bs : List Byte) : (bs.map BitVec.toNat).map byteLiteral = bs := by
  simp [Function.comp_def]

/-- Settles O14: each pseudo-command expands to the commands of the bytes its literals stand for. -/
theorem pseudoCommandsExpand : Obligations.PseudoCommandsExpand := by
  refine ⟨rfl, rfl, fun key data => ⟨?_, ?_, ?_⟩⟩
  · rw [Line.expand, map_byteLiteral_toNat, keyCommands]
  · rw [Line.expand, map_byteLiteral_toNat, streamCommands]
  · rw [Line.expand, map_byteLiteral_toNat, map_byteLiteral_toNat, sessionCommands, keyCommands, streamCommands]
    simp

end Sys2Proof
end

section
/-! PROOFS. The response and the command interface (spec/30_encoding.md rules R52, R54, R58; spec/10_state.md rule R28). -/

namespace Sys2Proof.Machine

/-! ### The response word -/

/-- Bit 3 of `STATUS` is `KTRUNC`. -/
theorem State.status_ktrunc (s : State) : s.status.getLsbD 3 = s.ktrunc := by
  rw [State.status_bit]
  simp

/-- Bits 7:4 of `STATUS` are the code of the cause. -/
theorem State.status_ecode (s : State) : s.status.extractLsb' 4 4 = s.ecode.code := by
  apply BitVec.eq_of_getLsbD_eq
  intro n hn
  have h3 : ¬ 4 + n < 3 := by omega
  have h4 : ¬ 4 + n - 3 < 1 := by omega
  simp [State.status_bit, hn, h3, h4]

/-- Settles O6: the word is `responseWord`, read back field by field. -/
theorem respondAppendsStatusAndByte : Obligations.RespondAppendsStatusAndByte := by
  refine ⟨fun s d => ⟨responseWord s.status d, rfl, responseStatus_responseWord _ d, responseDout_responseWord _ d, ?_,
    s.status_phase, s.status_ktrunc, s.status_ecode⟩, rfl, rfl⟩
  rw [responsePhase_responseWord, State.status_phase]

/-! ### The command taken -/

/-- Settles O21: a command at the head of the host's moves is taken and dispatched by its decoding. -/
theorem stepRunsTheDecodedCommand : Obligations.StepRunsTheDecodedCommand := by
  intro s w rest i ha hh hd
  rw [step_takes ha hh, takeCommand, hd]
  rfl

/-! ### One response for each completed command -/

/-- The step from `s` to `t` completes a command (rule R52): one is taken that does not start a schedule, or SCHED ends. -/
def Completes (s t : State) : Prop :=
  (s.taken ≠ none ∧ t.phase ≠ .fill) ∨ (s.phase = .drop ∧ t.phase = .ready)

/-- A command taken is complete when the core takes commands again. -/
theorem Completes.of_command {s t : State} {w : Word} {rest : List HostMove} (ha : s.phase.accepting = true)
    (hh : s.host = .command w :: rest) (ht : t.phase.accepting = true) : Completes s t := by
  refine .inl ⟨by simp [State.taken_of_command ha hh], fun hfill => ?_⟩
  rw [hfill] at ht
  cases ht

/-- A step that takes no command completes none, unless it leads from DROP to READY. -/
theorem not_completes_of_not_taken {s t : State} (hn : s.taken = none) (hp : s.phase ≠ .drop ∨ t.phase ≠ .ready) :
    ¬ Completes s t := by
  rintro (⟨htaken, -⟩ | ⟨hdrop, hready⟩)
  · exact htaken hn
  · exact hp.elim (· hdrop) (· hready)

/-- A hard reset is no command. -/
theorem State.taken_of_hardReset {s : State} {delay : Nat} {rest : List HostMove} (hh : s.host = .hardReset delay :: rest) :
    s.taken = none := by
  simp [State.taken, hh]

/-- A phase that takes commands is not DROP. -/
theorem Phase.ne_drop_of_accepting {p : Phase} (h : p.accepting = true) : p ≠ .drop := by
  rintro rfl
  cases h

/-- A step completes a command and returns one response, or it completes none and returns none. -/
theorem step_completes {s t : State} (h : step s = .next t) :
    (Completes s t ∧ ∃ r, t.responses = s.responses ++ [r]) ∨ (¬ Completes s t ∧ t.responses = s.responses) := by
  cases step_cases h with
  | hardReset rest hh ht =>
    subst ht
    exact .inr ⟨not_completes_of_not_taken (State.taken_of_hardReset hh) (.inr (by simp)), rfl⟩
  | idle moves ha hw ht =>
    subst ht
    exact .inr ⟨not_completes_of_not_taken hw.taken_eq_none (.inl (Phase.ne_drop_of_accepting ha)), rfl⟩
  | fill moves hp hw ht =>
    refine .inr ⟨not_completes_of_not_taken hw.taken_eq_none (.inl (by simp [hp])), ?_⟩
    rw [ht, uFILL_frame]; rfl
  | ksa moves hp hw ht =>
    refine .inr ⟨not_completes_of_not_taken hw.taken_eq_none (.inl (by simp [hp])), ?_⟩
    rw [uKSA_frame ht]; rfl
  | drop moves hp hw u w hu ht =>
    have hr : u.responses = s.responses := by rw [uPRGA_frame hu]; rfl
    have hu' : u.phase = .drop := by rw [uPRGA_frame hu]; exact hp
    rcases drop_sequencer hu ht with ⟨-, rfl⟩ | ⟨-, rfl⟩
    · exact .inl ⟨.inr ⟨hp, rfl⟩, _, congrArg (· ++ _) hr⟩
    · exact .inr ⟨not_completes_of_not_taken hw.taken_eq_none (.inr (by simp [hu'])), hr⟩
  | rst w rest ha hh hd ht =>
    subst ht
    exact .inl ⟨.of_command ha hh rfl, _, rfl⟩
  | stat w rest ha hh hd ht =>
    subst ht
    exact .inl ⟨.of_command ha hh ha, _, rfl⟩
  | ignored w rest hp hh hd ht =>
    subst ht
    have ha := accepting_of_error hp
    exact .inl ⟨.of_command ha hh ha, _, rfl⟩
  | raised w rest c hp hh hc ht =>
    subst ht
    exact .inl ⟨.of_command (hp.elim accepting_of_keyload accepting_of_ready) hh rfl, _, rfl⟩
  | keyb w rest d hp hh hd u hu ht =>
    have ha := accepting_of_keyload hp
    rw [ht, ingestKeyByte_frame hu]
    exact .inl ⟨.of_command ha hh ha, _, rfl⟩
  | sched w rest hp hh hd hk ht =>
    subst ht
    refine .inr ⟨?_, rfl⟩
    rintro (⟨-, hfill⟩ | ⟨hdrop, -⟩)
    · exact hfill rfl
    · exact Phase.ne_drop_of_accepting (accepting_of_keyload hp) hdrop
  | crypt w rest d hp hh hd ht =>
    have ha := accepting_of_ready hp
    obtain ⟨u, w', hu, rfl⟩ := encryptByte_ok_iff.mp ht
    rw [uPRGA_frame hu]
    exact .inl ⟨.of_command ha hh ha, _, rfl⟩

/-- Settles O8, by the cases of a step. -/
theorem everyCommandGetsExactlyOneResponse : Obligations.EveryCommandGetsExactlyOneResponse := by
  intro s t h
  rcases step_completes h with ⟨hc, hone⟩ | ⟨hc, hnone⟩
  · exact (if_pos hc).mpr hone
  · exact (if_neg hc).mpr hnone

end Sys2Proof.Machine
end


section
/-! PROOFS. Key ingestion (spec/40_key_ingestion.md): what KEYB does at an even, an odd and a full key length (rules R63, R67), the key
words of a byte sequence that grows (rules R62, R65), and from both the key that a row of KEYB commands loads (rule R64). -/

namespace Sys2Proof.Machine

/-! ### One key byte (rules R63, R67) -/

/-- With room in `K`, the first byte of a pair writes the whole word. -/
theorem ingestKeyByte_first {s : State} (hroom : s.klen.toNat < 131072) (heven : s.klen.toNat % 2 = 0) (d : Byte) :
    ingestKeyByte s d = .ok { s with K := s.K.write (s.klen.toNat / 2) (pair d 0), klen := s.klen + 1 } := by
  have hindex : keyByteIndex s.klen < Config.stateSize := by simp only [keyByteIndex, Config.stateSize]; omega
  exact ingestKeyByte_ok_iff.mpr (.inr (.inl ⟨hroom.ne, (firstOfPair_iff _).mpr heven, hindex, rfl⟩))

/-- With room in `K`, the second byte of a pair writes the low byte of the word the first one wrote. -/
theorem ingestKeyByte_second {s : State} {old : Word} (hroom : s.klen.toNat < 131072) (hodd : s.klen.toNat % 2 = 1)
    (hold : s.K.read? (s.klen.toNat / 2) = some old) (d : Byte) :
    ingestKeyByte s d =
      .ok { s with K := s.K.write (s.klen.toNat / 2) (withLowByte old d), klen := s.klen + 1 } := by
  have hindex : keyByteIndex s.klen < Config.stateSize := by simp only [keyByteIndex, Config.stateSize]; omega
  exact ingestKeyByte_ok_iff.mpr
    (.inr (.inr ⟨hroom.ne, (firstOfPair_eq_false_iff _).mpr hodd, hindex, old, hold, rfl⟩))

/-- With `K` full, the byte is dropped. -/
theorem ingestKeyByte_full {s : State} (hfull : s.klen.toNat = 131072) (d : Byte) :
    ingestKeyByte s d = .ok { s with ktrunc := true } :=
  ingestKeyByte_ok_iff.mpr (.inl ⟨hfull, rfl⟩)

/-- In KEYLOAD, KEYB answers once the byte is ingested, and does nothing else. -/
theorem exec_keyb_iff {s t : State} {d : Byte} (hp : s.phase = .keyload) :
    exec (.keyb d) s = .next t ↔ ∃ u, ingestKeyByte s d = .ok u ∧ u.respond 0 = t := by
  have hrun : exec (.keyb d) s = outcomeOf ((ingestKeyByte s d).map fun t => t.respond 0) := onlyIn_own (.inl rfl) hp _
  rw [hrun, outcomeOf_next_iff, map_ok_iff]

/-- Settles O38: the three cases of the ingestion, each with its response. -/
theorem keybStoresOneKeyByte : Obligations.KeybStoresOneKeyByte := by
  intro s d hp
  refine ⟨fun hroom heven => ?_, fun hroom hodd old hold => ?_, fun hfull => ?_⟩
  · exact (exec_keyb_iff hp).mpr ⟨_, ingestKeyByte_first hroom heven d, rfl⟩
  · exact (exec_keyb_iff hp).mpr ⟨_, ingestKeyByte_second hroom hodd hold d, rfl⟩
  · exact (exec_keyb_iff hp).mpr ⟨_, ingestKeyByte_full hfull d, rfl⟩

/-- A key byte changes no word of `K` but its own. -/
theorem ingestKeyByte_read?_ne {s t : State} {d : Byte} (h : ingestKeyByte s d = .ok t) {a : Nat}
    (ha : a ≠ keyByteIndex s.klen) : t.K.read? a = s.K.read? a := by
  rcases ingestKeyByte_ok_iff.mp h with ⟨-, rfl⟩ | ⟨-, -, -, rfl⟩ | ⟨-, -, -, old, -, rfl⟩
  exacts [rfl, Memory.read?_write_ne _ _ ha, Memory.read?_write_ne _ _ ha]

/-- A key byte that finds room leaves `KTRUNC` alone. -/
theorem ingestKeyByte_ktrunc_of_room {s t : State} {d : Byte} (h : ingestKeyByte s d = .ok t)
    (hroom : s.klen.toNat ≠ 131072) : t.ktrunc = s.ktrunc := by
  rcases ingestKeyByte_ok_iff.mp h with ⟨hfull, -⟩ | ⟨-, -, -, rfl⟩ | ⟨-, -, -, old, -, rfl⟩
  exacts [absurd hfull hroom, rfl, rfl]

/-- Settles O39: the ingestion writes `K`, `KLEN` and `KTRUNC` alone, and of `K` one word. -/
theorem keybFrame : Obligations.KeybFrame := by
  intro s t d hp h
  obtain ⟨u, hu, rfl⟩ := (exec_keyb_iff hp).mp h
  refine ⟨fun a => ingestKeyByte_read?_ne hu, fun hfull => ?_, ?_⟩
  · rw [ingestKeyByte_full hfull] at hu
    cases hu
    exact ⟨rfl, rfl⟩
  · rw [ingestKeyByte_frame hu]
    exact ⟨rfl, rfl, rfl, rfl, rfl, rfl, rfl, ingestKeyByte_ktrunc_of_room (t := u) hu⟩

/-! ### The key words of a byte sequence (rules R62, R65) -/

/-- Behind an even number of bytes the pairing starts afresh. -/
theorem keywords_append {key : List Byte} (heven : key.length % 2 = 0) (more : List Byte) :
    keywords (key ++ more) = keywords key ++ keywords more := by
  induction key using keywords.induct with
  | case1 => rfl
  | case2 h => simp at heven
  | case3 h l rest ih =>
    have hrest : rest.length % 2 = 0 := by simp only [List.length_cons] at heven; omega
    exact congrArg (pair h l :: ·) (ih hrest)

/-- A key has half as many key words as bytes, rounded up. -/
theorem keywords_length (key : List Byte) : (keywords key).length = (key.length + 1) / 2 := by
  induction key using keywords.induct with
  | case1 => rfl
  | case2 h => simp [keywords]
  | case3 h l rest ih => simp only [keywords, List.length_cons, ih]; omega

/-- A key of odd length is an even number of bytes and its last byte. -/
theorem exists_eq_append_of_odd_length {key : List Byte} (hodd : key.length % 2 = 1) :
    ∃ front last, key = front ++ [last] ∧ front.length % 2 = 0 := by
  rcases List.eq_nil_or_concat key with rfl | ⟨front, last, rfl⟩
  · simp at hodd
  · refine ⟨front, last, List.concat_eq_append, ?_⟩
    rw [List.length_concat] at hodd
    omega

/-- An odd key and the same key with 0x00 appended have the same key words: both pad the last byte with a zero low byte. -/
theorem keywords_append_zero {key : List Byte} (hodd : key.length % 2 = 1) : keywords (key ++ [0x00]) = keywords key := by
  obtain ⟨front, last, rfl, heven⟩ := exists_eq_append_of_odd_length hodd
  calc keywords (front ++ [last] ++ [0x00]) = keywords (front ++ [last, 0x00]) := by simp
    _ = keywords front ++ [pair last 0x00] := keywords_append heven _
    _ = keywords (front ++ [last]) := (keywords_append heven [last]).symm

/-- The stored bytes of the two keys have the same key words: the appended byte is stored only where the whole odd key is. -/
theorem keywords_take_append_zero {key : List Byte} (hodd : key.length % 2 = 1) :
    keywords ((key ++ [0x00]).take 131072) = keywords (key.take 131072) := by
  by_cases hfits : key.length < 131072
  · have hwhole : (key ++ [0x00]).length ≤ 131072 := by simpa using hfits
    rw [List.take_of_length_le hwhole, List.take_of_length_le hfits.le, keywords_append_zero hodd]
  · rw [List.take_append_of_le_length (not_lt.mp hfits)]

/-- The keystream depends on the stored bytes through their key words alone. -/
theorem keystreamByte_congr {key key' : List Byte}
    (h : keywords (key.take 131072) = keywords (key'.take 131072)) (m : Nat) : keystreamByte key m = keystreamByte key' m := by
  have hgen : keyGenerator key = keyGenerator key' := congrArg (fun words => Generator.start (ksa words)) h
  rw [keystreamByte, generatedWord, hgen, keystreamByte, generatedWord]

/-- Settles O41: the key words of a key and one byte more, and the keystream by the key words. -/
theorem oddKeyEqualsKeyWithZeroAppended : Obligations.OddKeyEqualsKeyWithZeroAppended :=
  ⟨fun _ last heven => keywords_append heven [last],
    fun _ hodd => ⟨keywords_append_zero hodd, keystreamByte_congr (keywords_take_append_zero hodd)⟩, by decide, by decide⟩

/-! ### A memory that holds a list of key words -/

/-- A memory that holds a list holds the front of it. -/
theorem Memory.HoldsWords.front {m : Memory} {ws : List Word} {w : Word} (h : m.HoldsWords (ws ++ [w])) : m.HoldsWords ws := by
  intro a ha
  rw [h a (ha.trans_le (by simp)), List.getElem?_append_left ha]

/-- A memory that holds a list reads its last word behind the front. -/
theorem Memory.HoldsWords.read?_last {m : Memory} {ws : List Word} {w : Word} (h : m.HoldsWords (ws ++ [w])) :
    m.read? ws.length = some w := by
  rw [h ws.length (by simp), List.getElem?_concat_length]

/-- Writing the word behind a list appends it to the list held. -/
theorem Memory.HoldsWords.write_next {m : Memory} {ws : List Word} (h : m.HoldsWords ws) (w : Word) :
    Memory.HoldsWords (m.write ws.length w) (ws ++ [w]) := by
  intro a ha
  rw [Memory.read?_write]
  split
  · next heq => rw [heq, List.getElem?_concat_length]
  · next hne =>
    rw [List.length_append, List.length_singleton] at ha
    have hlt : a < ws.length := by omega
    rw [h a hlt, List.getElem?_append_left hlt]

/-! ### The key that KEYB commands load (rule R64) -/

/-- The core, in KEYLOAD, has been given the key bytes `bytes` since its reset (rules R63, R64, R67). -/
structure State.HoldsKey (s : State) (bytes : List Byte) : Prop where
  keyload : s.phase = .keyload
  klen_eq : s.klen.toNat = min bytes.length 131072
  ktrunc_iff : s.ktrunc = true ↔ 131072 < bytes.length
  holdsWords : s.K.HoldsWords (keywords (bytes.take 131072))

/-- At reset no key byte has been given. -/
theorem State.reset_holdsKey : State.reset.HoldsKey [] where
  keyload := rfl
  klen_eq := rfl
  ktrunc_iff := by simp [State.reset]
  holdsWords a ha := absurd ha (Nat.not_lt_zero a)

/-- The key does not depend on the host's moves. -/
theorem State.HoldsKey.withHost {s : State} {bytes : List Byte} (h : s.HoldsKey bytes) (moves : List HostMove) :
    (s.withHost moves).HoldsKey bytes := by
  obtain ⟨⟩ := h; constructor <;> assumption

/-- The key does not depend on the responses. -/
theorem State.HoldsKey.respond {s : State} {bytes : List Byte} (h : s.HoldsKey bytes) (d : Byte) :
    (s.respond d).HoldsKey bytes := by
  obtain ⟨⟩ := h; constructor <;> assumption

/-- A byte for which there is room: where `K` comes to hold the key words of one byte more, the core holds the longer key. -/
theorem State.HoldsKey.stored {s : State} {bytes : List Byte} (h : s.HoldsKey bytes) (hroom : bytes.length < 131072) {d : Byte}
    {m : Memory} (hm : m.HoldsWords (keywords (bytes ++ [d]))) :
    State.HoldsKey { s with K := m, klen := s.klen + 1 } (bytes ++ [d]) := by
  have hklen : s.klen.toNat = bytes.length := by rw [h.klen_eq, min_eq_left hroom.le]
  have hlen : (bytes ++ [d]).length ≤ 131072 := by simpa using hroom
  refine ⟨h.keyload, ?_, ?_, ?_⟩
  · rw [min_eq_left hlen, klen_succ_toNat (hklen ▸ hroom), hklen, List.length_append, List.length_singleton]
  · exact h.ktrunc_iff.trans (iff_of_false hroom.not_gt hlen.not_gt)
  · rwa [List.take_of_length_le hlen]

/-- A byte for which there is no room: the key words held stay those of the first 131072 bytes. -/
theorem State.HoldsKey.dropped {s : State} {bytes : List Byte} (h : s.HoldsKey bytes) (hfull : 131072 ≤ bytes.length) (d : Byte) :
    State.HoldsKey { s with ktrunc := true } (bytes ++ [d]) := by
  have hlen : 131072 < (bytes ++ [d]).length := by simpa using Nat.lt_succ_of_le hfull
  refine ⟨h.keyload, ?_, iff_of_true rfl hlen, ?_⟩
  · rw [min_eq_right hlen.le, ← min_eq_right hfull]; exact h.klen_eq
  · rw [List.take_append_of_le_length hfull]; exact h.holdsWords

/-- Ingesting a byte extends the key by it. -/
theorem State.HoldsKey.ingest {s : State} {bytes : List Byte} (h : s.HoldsKey bytes) (d : Byte) :
    ∃ t, ingestKeyByte s d = .ok t ∧ t.HoldsKey (bytes ++ [d]) := by
  rcases le_or_gt 131072 bytes.length with hfull | hroom
  · exact ⟨_, ingestKeyByte_full (h.klen_eq.trans (min_eq_right hfull)) d, h.dropped hfull d⟩
  have hklen : s.klen.toNat = bytes.length := h.klen_eq.trans (min_eq_left hroom.le)
  have hwords : s.K.HoldsWords (keywords bytes) := List.take_of_length_le hroom.le ▸ h.holdsWords
  rcases Nat.mod_two_eq_zero_or_one bytes.length with heven | hodd
  · have hindex : s.klen.toNat / 2 = (keywords bytes).length := by rw [keywords_length]; omega
    refine ⟨_, ingestKeyByte_first (hklen ▸ hroom) (hklen ▸ heven) d, h.stored hroom ?_⟩
    rw [hindex, keywords_append heven]
    exact hwords.write_next (pair d 0)
  · obtain ⟨front, last, rfl, heven⟩ := exists_eq_append_of_odd_length hodd
    rw [keywords_append heven] at hwords
    have hindex : s.klen.toNat / 2 = (keywords front).length := by
      rw [keywords_length, hklen, List.length_append, List.length_singleton]
    have hlast : s.K.read? (s.klen.toNat / 2) = some (pair last 0) := hindex ▸ hwords.read?_last
    refine ⟨_, ingestKeyByte_second (hklen ▸ hroom) (hklen ▸ hodd) hlast d, h.stored hroom ?_⟩
    rw [hindex, withLowByte_pair, List.append_assoc, keywords_append heven]
    exact hwords.front.write_next (pair last d)

/-- A command of the key loading, taken: KEYB extends the key by its byte, STAT leaves it. -/
theorem State.HoldsKey.step_command {s : State} {bytes : List Byte} (h : s.HoldsKey bytes) {c : Instr} {rest : List HostMove}
    (hc : c = .stat ∨ ∃ d, c = .keyb d) (hh : s.host = .command (encode c) :: rest) :
    ∃ t, step s = .next t ∧ t.HoldsKey (bytes ++ [c].filterMap Instr.keyByte?) ∧ t.host = rest := by
  have hrest := h.withHost rest
  rcases hc with rfl | ⟨d, rfl⟩
  · refine ⟨_, step_of_case (.stat _ rest (accepting_of_keyload h.keyload) hh (decode_encode _) rfl), ?_, rfl⟩
    exact (List.append_nil bytes).symm ▸ hrest.respond 0
  · obtain ⟨u, hu, hkey⟩ := hrest.ingest d
    refine ⟨_, step_of_case (.keyb _ rest d h.keyload hh (decode_encode _) u hu rfl), hkey.respond 0, ?_⟩
    rw [ingestKeyByte_frame hu]; rfl

/-- A run of KEYB and STAT commands extends the key by the bytes of the KEYB commands. -/
theorem State.HoldsKey.run_commands {cs : List Instr} (hcs : ∀ c ∈ cs, c = .stat ∨ ∃ d, c = .keyb d) {s : State}
    {bytes : List Byte} (h : s.HoldsKey bytes) (hh : s.host = commandMoves cs) :
    ∃ t, runSteps cs.length s = .next t ∧ t.HoldsKey (bytes ++ cs.filterMap Instr.keyByte?) := by
  induction cs generalizing s bytes with
  | nil => exact ⟨s, rfl, by simpa using h⟩
  | cons c cs ih =>
    obtain ⟨hc, hcs⟩ := List.forall_mem_cons.mp hcs
    obtain ⟨u, hu, hkey, hhost⟩ := h.step_command hc hh
    obtain ⟨t, ht, hkey⟩ := ih hcs hkey hhost
    rw [List.append_assoc, ← List.filterMap_append] at hkey
    exact ⟨t, (runSteps_succ cs.length hu).trans ht, hkey⟩

/-- Settles O40: from reset, which holds the empty key, the commands load their bytes. -/
theorem keyCommandsLoadTheKeyWords : Obligations.KeyCommandsLoadTheKeyWords := by
  rintro cs bytes hcs rfl
  obtain ⟨t, ht, hkey⟩ := (State.reset_holdsKey.withHost (commandMoves cs)).run_commands hcs rfl
  rw [List.nil_append] at hkey
  have htake : (cs.filterMap Instr.keyByte?).take t.klen.toNat = (cs.filterMap Instr.keyByte?).take 131072 := by
    rw [hkey.klen_eq, min_comm, ← List.take_eq_take_min]
  refine ⟨t, ht, hkey.klen_eq, hkey.ktrunc_iff, htake ▸ hkey.holdsWords, ?_⟩
  rw [keywords_length, htake, List.length_take, min_comm, ← hkey.klen_eq, keyWordCount]

end Sys2Proof.Machine
end

section
/-! PROOFS. The key schedule (spec/41_key_schedule.md) and the discarded steps behind it (spec/42_keystream.md rule R76). First the step of
each of FILL, KSA and DROP, as an equation. Then, for each phase, the state `n` steps into it: only `S`, the indices and `CNT` have moved,
`CNT` is `n`, and `S` and the indices are those of the pure algorithm after `n` rounds. Every step before the last keeps that, and the last
step ends the phase; SCHED is the three runs one after another. -/

namespace Sys2Proof.Machine

/-! ### `CNT` inside a phase -/

/-- The last micro-step of a phase is the one at its last count. -/
theorem State.lastOf_iff_cnt_eq (s : State) {last : BitVec 20} {steps : Nat} (hlast : last.toNat + 1 = steps) :
    s.lastOf steps = true ↔ s.cnt = last := by
  rw [State.lastOf_iff]
  exact ⟨fun h => cnt_eq_of_last h hlast, fun h => h ▸ hlast⟩

/-- A count below the last one of a phase is not the last. -/
theorem cnt_ofNat_ne {n : Nat} {last : BitVec 20} (h : n < last.toNat) : BitVec.ofNat 20 n ≠ last := by
  rintro rfl
  exact absurd (Nat.mod_le n (2 ^ 20)) (not_le.mpr h)

/-- The loop variable at count `n`. -/
theorem loopIndex_ofNat (n : Nat) : loopIndex (BitVec.ofNat 20 n) = BitVec.ofNat 16 n := by
  apply BitVec.eq_of_toNat_eq
  rw [loopIndex_toNat, BitVec.toNat_ofNat, BitVec.toNat_ofNat]
  exact Nat.mod_mod_of_dvd n (by decide)

/-- The state at count `n` of the phase of `s`, with new values of what the micro-steps of a phase write. -/
def State.atCount (s : State) (n : Nat) (m : Memory) (i j : Word) : State :=
  { s with S := m, i := i, j := j, cnt := BitVec.ofNat 20 n }

/-- A phase begins at count 0. -/
theorem State.atCount_zero {s : State} (h : s.cnt = 0) : s = s.atCount 0 s.S s.i s.j := by
  rw [State.atCount, show BitVec.ofNat 20 0 = s.cnt from h.symm]

/-- One more micro-step. -/
theorem State.atCount_succ (s : State) (n : Nat) (m : Memory) (i j : Word) :
    s.atCount (n + 1) m i j = { s with S := m, i := i, j := j, cnt := BitVec.ofNat 20 n + 1 } := by
  rw [State.atCount, BitVec.ofNat_add]
  rfl

/-! ### One step of FILL, KSA and DROP (rules R70, R71, R76) -/

/-- A step of FILL. -/
theorem step_fill {s : State} (hp : s.phase = .fill) (hr : s.resetPending = false) :
    step s = .next (if s.cnt = 65535 then
      { s with S := s.S.write (loopIndex s.cnt).toNat (loopIndex s.cnt), j := 0, phase := .ksa, cnt := 0 }
      else { s with S := s.S.write (loopIndex s.cnt).toNat (loopIndex s.cnt), cnt := s.cnt + 1 }) := by
  rw [step_busy (s.busy_iff.mpr (.inl hp)) hr, microStep_fill hp, uFILL_eq]
  simp only [s.lastOf_iff_cnt_eq (last := 65535) (steps := Config.fillSteps) rfl]
  rfl

/-- A step of KSA, where the words that uKSA reads are written. -/
theorem step_ksa {s : State} {a k b : Word} (hp : s.phase = .ksa) (hr : s.resetPending = false)
    (hpos : 1 ≤ keyWordCount s.klen) (ha : s.S.read? (loopIndex s.cnt).toNat = some a)
    (hk : s.K.read? ((loopIndex s.cnt).toNat % keyWordCount s.klen) = some k)
    (hb : s.S.read? (add16Three s.j a k).toNat = some b) :
    step s = .next (if s.cnt = 65535 then
      { s with S := (s.S.write (loopIndex s.cnt).toNat b).write (add16Three s.j a k).toNat a, i := 0, j := 0,
               phase := .drop, cnt := 0 }
      else { s with S := (s.S.write (loopIndex s.cnt).toNat b).write (add16Three s.j a k).toNat a,
                    j := add16Three s.j a k, cnt := s.cnt + 1 }) := by
  have hlt : (loopIndex s.cnt).toNat % keyWordCount s.klen < Config.stateSize :=
    lt_of_le_of_lt (Nat.mod_le _ _) (word_index_lt _)
  rw [step_busy (s.busy_iff.mpr (.inr (.inl hp))) hr,
    (microStep_ksa_iff hp).mpr (uKSA_ok_iff.mpr ⟨a, k, b, Nat.ne_of_gt hpos, ha, hlt, hk, hb, rfl⟩)]
  simp only [s.lastOf_iff_cnt_eq (last := 65535) (steps := Config.ksaSteps) rfl]
  rfl

/-- A step of KSA on a memory that holds a table makes one round of the pure key schedule (rule R68). -/
theorem step_ksaRound {s : State} {words : List Word} {f : Table} (hp : s.phase = .ksa) (hr : s.resetPending = false)
    (hpos : 1 ≤ words.length) (hlen : words.length = keyWordCount s.klen) (hK : s.K.HoldsWords words)
    (hS : s.S.Holds f) :
    ∃ m : Memory, m.Holds (ksaRound words (f, s.j) (loopIndex s.cnt)).1 ∧
      step s = .next (if s.cnt = 65535 then { s with S := m, i := 0, j := 0, phase := .drop, cnt := 0 }
        else { s with S := m, j := (ksaRound words (f, s.j) (loopIndex s.cnt)).2, cnt := s.cnt + 1 }) := by
  have hmod : (loopIndex s.cnt).toNat % words.length < words.length := Nat.mod_lt _ hpos
  have hk : s.K.read? ((loopIndex s.cnt).toNat % words.length) =
      some (words.getD ((loopIndex s.cnt).toNat % words.length) 0) := by
    rw [hK _ hmod, List.getD_eq_getElem _ _ hmod, List.getElem?_eq_getElem hmod]
  exact ⟨_, (hS.swap _ _).2, step_ksa hp hr (hlen ▸ hpos) (hS _) (hlen ▸ hk) (hS _)⟩

/-- The first of two exchanged entries holds what the second held. -/
theorem Table.swap_left (t : Table) (a b : Word) : t.swap a b a = t b := if_pos rfl

/-- The second holds what the first held. -/
theorem Table.swap_right (t : Table) (a b : Word) : t.swap a b b = t a := by
  unfold Table.swap
  split
  · next heq => rw [heq]
  · exact if_pos rfl

/-- The word a step emits, by the two entries it exchanged. -/
theorem Generator.emitted_next (g : Generator) :
    g.next.emitted = g.next.table (add16 (g.table g.next.j) (g.table g.next.i)) := by
  have hi : g.next.table g.next.i = g.table g.next.j := Table.swap_left ..
  have hj : g.next.table g.next.j = g.table g.next.i := Table.swap_right ..
  rw [Generator.emitted, hi, hj]

/-- uPRGA on a memory that holds the table of a generator makes one step of the generator (rule R74). -/
theorem uPRGA_next {s : State} {g : Generator} (hS : s.S.Holds g.table) (hi : s.i = g.i) (hj : s.j = g.j) :
    ∃ m : Memory, m.Holds g.next.table ∧
      uPRGA s = .ok ({ s with S := m, i := g.next.i, j := g.next.j }, g.next.emitted) := by
  obtain ⟨f, i, j⟩ := g
  obtain rfl : s.i = i := hi
  obtain rfl : s.j = j := hj
  have hswap := (Memory.Holds.swap hS (add16 s.i 1) (add16 (f (add16 s.i 1)) s.j)).2
  have hword := (hswap _).trans (congrArg some (Generator.emitted_next ⟨f, s.i, s.j⟩).symm)
  exact ⟨_, hswap, uPRGA_ok_iff.mpr ⟨_, _, hS _, hS _, hword, rfl⟩⟩

/-- A step of DROP on a memory that holds the table of a generator makes one step of the generator; the last answers SCHED. -/
theorem step_drop {s : State} {g : Generator} (hp : s.phase = .drop) (hr : s.resetPending = false)
    (hS : s.S.Holds g.table) (hi : s.i = g.i) (hj : s.j = g.j) :
    ∃ m : Memory, m.Holds g.next.table ∧
      step s = .next (if s.cnt = 786431 then
        State.respond { s with S := m, i := g.next.i, j := g.next.j, phase := .ready, cnt := 0 } 0
        else { s with S := m, i := g.next.i, j := g.next.j, cnt := s.cnt + 1 }) := by
  obtain ⟨m, hm, hu⟩ := uPRGA_next hS hi hj
  refine ⟨m, hm, ?_⟩
  rw [step_busy (s.busy_iff.mpr (.inr (.inr hp))) hr, (microStep_drop_iff hp).mpr ⟨_, _, hu, rfl⟩]
  simp only [State.lastOf_iff_cnt_eq _ (last := 786431) (steps := Config.dropSteps) rfl]
  rfl

/-! ### The run of FILL (rule R70) -/

/-- `t` is `n` steps of FILL behind `s`: the words below `n` hold the identity. -/
def Filled (s : State) (n : Nat) (t : State) : Prop :=
  ∃ m : Memory, t = s.atCount n m s.i s.j ∧ ∀ a < n, m.read? a = some (BitVec.ofNat 16 a)

/-- A write of the identity's next word. -/
theorem Memory.identity_write {m : Memory} {n : Nat} (hn : n < 65536) (h : ∀ a < n, m.read? a = some (BitVec.ofNat 16 a)) :
    ∀ a < n + 1, (m.write (BitVec.ofNat 16 n).toNat (BitVec.ofNat 16 n)).read? a = some (BitVec.ofNat 16 a) := by
  intro a ha
  rw [BitVec.toNat_ofNat, Nat.mod_eq_of_lt hn, Memory.read?_write]
  split
  · next heq => rw [heq]
  · exact h a (by omega)

/-- A memory whose words are the identity's holds the identity. -/
theorem Memory.holds_id {m : Memory} (h : ∀ a < 65536, m.read? a = some (BitVec.ofNat 16 a)) : m.Holds id := by
  intro a
  rw [h a.toNat a.isLt, BitVec.ofNat_toNat, BitVec.setWidth_eq, id]

section Fill
variable {s : State} (hp : s.phase = .fill) (hc : s.cnt = 0) (hr : s.resetPending = false)
include hp hc hr

/-- Before its last step FILL stays in FILL and writes the identity word by word. -/
theorem run_filled : ∀ n ≤ 65535, ∃ t, runSteps n s = .next t ∧ Filled s n t := by
  refine runSteps_of_forall ⟨s.S, State.atCount_zero hc, fun a ha => absurd ha (Nat.not_lt_zero a)⟩ ?_
  rintro n hn _ ⟨m, rfl, hm⟩
  have hid := Memory.identity_write (by omega) hm
  refine ⟨_, step_fill (s := s.atCount n m s.i s.j) hp hr, _, ?_, hid⟩
  rw [← loopIndex_ofNat]
  exact (if_neg (cnt_ofNat_ne hn)).trans (s.atCount_succ n _ _ _).symm

/-- The whole of FILL leaves the identity and goes to KSA with `j` cleared. -/
theorem run_fill : ∃ m : Memory, m.Holds id ∧ runSteps 65536 s = .next { s with S := m, j := 0, phase := .ksa, cnt := 0 } := by
  obtain ⟨_, hrun, m, rfl, hm⟩ := run_filled hp hc hr 65535 le_rfl
  have hstep := step_fill (s := s.atCount 65535 m s.i s.j) hp hr
  exact ⟨_, Memory.holds_id (Memory.identity_write (by decide) hm),
    runSteps_snoc hrun (hstep.trans (congrArg _ (if_pos rfl)))⟩

end Fill

/-! ### The run of KSA (rules R68, R71) -/

/-- `t` is `n` steps of KSA behind `s`: `S` and `j` are those of `n` rounds of the pure key schedule. -/
def Scheduled (words : List Word) (s : State) (n : Nat) (t : State) : Prop :=
  ∃ m : Memory, t = s.atCount n m s.i (ksaRounds words n).2 ∧ m.Holds (ksaRounds words n).1

section Ksa
variable {s : State} {words : List Word} (hp : s.phase = .ksa) (hc : s.cnt = 0) (hr : s.resetPending = false)
  (hpos : 1 ≤ words.length) (hlen : words.length = keyWordCount s.klen) (hK : s.K.HoldsWords words)
  (hj : s.j = 0) (hS : s.S.Holds id)
include hp hc hr hpos hlen hK hj hS

/-- Before its last step KSA stays in KSA and makes the rounds of the pure key schedule. -/
theorem run_scheduled : ∀ n ≤ 65535, ∃ t, runSteps n s = .next t ∧ Scheduled words s n t := by
  refine runSteps_of_forall ⟨s.S, (State.atCount_zero hc).trans (congrArg (s.atCount 0 s.S s.i) hj), hS⟩ ?_
  rintro n hn _ ⟨m, rfl, hm⟩
  obtain ⟨m', hm', hstep⟩ :=
    step_ksaRound (s := s.atCount n m s.i (ksaRounds words n).2) hp hr hpos hlen hK hm
  have hx : loopIndex (s.atCount n m s.i (ksaRounds words n).2).cnt = BitVec.ofNat 16 n := loopIndex_ofNat n
  rw [hx] at hm' hstep
  exact ⟨_, hstep, m', (if_neg (cnt_ofNat_ne hn)).trans (s.atCount_succ n _ _ _).symm, hm'⟩

/-- The whole of KSA leaves `ksa(K)` and goes to DROP with `i` and `j` cleared. -/
theorem run_ksa : ∃ m : Memory, m.Holds (ksa words) ∧
    runSteps 65536 s = .next { s with S := m, i := 0, j := 0, phase := .drop, cnt := 0 } := by
  obtain ⟨_, hrun, m, rfl, hm⟩ := run_scheduled hp hc hr hpos hlen hK hj hS 65535 le_rfl
  obtain ⟨m', hm', hstep⟩ :=
    step_ksaRound (s := s.atCount 65535 m s.i (ksaRounds words 65535).2) hp hr hpos hlen hK hm
  exact ⟨m', hm', runSteps_snoc hrun (hstep.trans (congrArg _ (if_pos rfl)))⟩

end Ksa

/-! ### The run of DROP (rules R75, R76) -/

/-- `t` is `n` steps of DROP behind `s`: `S`, `i` and `j` are those of the generator after `n` steps. -/
def Dropped (g : Generator) (s : State) (n : Nat) (t : State) : Prop :=
  ∃ m : Memory, t = s.atCount n m (g.after n).i (g.after n).j ∧ m.Holds (g.after n).table

/-- From its start a generator's `i` counts the steps modulo 65536 (rules R74, R76). -/
theorem Generator.start_after_i (f : Table) (n : Nat) : ((Generator.start f).after n).i = BitVec.ofNat 16 n := by
  induction n with
  | zero => rfl
  | succ n ih =>
    calc add16 ((Generator.start f).after n).i 1 = BitVec.ofNat 16 n + 1 := by rw [ih, add16_eq_add]
      _ = BitVec.ofNat 16 (n + 1) := (BitVec.ofNat_add n 1).symm

section Drop
variable {s : State} {g : Generator} (hp : s.phase = .drop) (hc : s.cnt = 0) (hr : s.resetPending = false)
  (hS : s.S.Holds g.table) (hi : s.i = g.i) (hj : s.j = g.j)
include hp hc hr hS hi hj

/-- Before its last step DROP stays in DROP, makes the steps of the generator and answers nothing. -/
theorem run_dropped : ∀ n ≤ 786431, ∃ t, runSteps n s = .next t ∧ Dropped g s n t := by
  refine runSteps_of_forall ⟨s.S, (State.atCount_zero hc).trans (congrArg₂ (s.atCount 0 s.S) hi hj), hS⟩ ?_
  rintro n hn _ ⟨m, rfl, hm⟩
  obtain ⟨m', hm', hstep⟩ := step_drop (s := s.atCount n m (g.after n).i (g.after n).j) hp hr hm rfl rfl
  exact ⟨_, hstep, m', (if_neg (cnt_ofNat_ne hn)).trans (s.atCount_succ n _ _ _).symm, hm'⟩

/-- The whole of DROP leaves the generator 786432 steps on, goes to READY and answers SCHED. -/
theorem run_drop : ∃ m : Memory, m.Holds (g.after 786432).table ∧
    runSteps 786432 s = .next (State.respond
      { s with S := m, i := (g.after 786432).i, j := (g.after 786432).j, phase := .ready, cnt := 0 } 0) := by
  obtain ⟨_, hrun, m, rfl, hm⟩ := run_dropped hp hc hr hS hi hj 786431 le_rfl
  obtain ⟨m', hm', hstep⟩ :=
    step_drop (s := s.atCount 786431 m (g.after 786431).i (g.after 786431).j) hp hr hm rfl rfl
  exact ⟨m', hm', runSteps_snoc hrun (hstep.trans (congrArg _ (if_pos rfl)))⟩

end Drop

/-! ### FILL and KSA together (rule R73) -/

/-- A key of at least one byte has at least one key word (rules R12, R25). -/
theorem keyWordCount_pos {klen : BitVec 18} (h : 1 ≤ klen.toNat) : 1 ≤ keyWordCount klen := by
  have := (keyWordCount_bounds klen).1
  omega

/-- FILL and KSA, one after the other, leave `ksa(K)` and go to DROP with `i` and `j` cleared (rule R73). -/
theorem run_fill_ksa {s : State} {words : List Word} (hp : s.phase = .fill) (hc : s.cnt = 0) (hr : s.resetPending = false)
    (hkey : 1 ≤ s.klen.toNat) (hlen : words.length = keyWordCount s.klen) (hK : s.K.HoldsWords words) :
    ∃ m : Memory, m.Holds (ksa words) ∧
      runSteps 131072 s = .next { s with S := m, i := 0, j := 0, phase := .drop, cnt := 0 } := by
  obtain ⟨m, hm, hfill⟩ := run_fill hp hc hr
  obtain ⟨m', hm', hksa⟩ := run_ksa (s := { s with S := m, j := 0, phase := .ksa, cnt := 0 }) (words := words) rfl rfl hr
    (hlen ▸ keyWordCount_pos hkey) hlen hK rfl hm
  exact ⟨m', hm', (runSteps_add 65536 hfill).trans hksa⟩

/-! ### The statements -/

/-- Settles O42: in KEYLOAD the command runs, and with a key it is `goto FILL` alone. -/
theorem schedStartsTheFill : Obligations.SchedStartsTheFill := by
  intro s hp hk
  exact (onlyIn_own (.inl rfl) hp _).trans (if_neg hk)

/-- Settles O43: the step of FILL, and its run. -/
theorem fillWritesTheIdentity : Obligations.FillWritesTheIdentity := by
  refine ⟨fun s => step_fill, fun s hp hc hr => ?_⟩
  obtain ⟨m, hm, hrun⟩ := run_fill hp hc hr
  exact ⟨_, hrun, hm, rfl, rfl, rfl, rfl, rfl, rfl, rfl, rfl, rfl, rfl⟩

/-- Settles O44: the step of KSA. -/
theorem ksaStepAddsAndSwaps : Obligations.KsaStepAddsAndSwaps :=
  fun _ _ _ _ hp hr hpos _ => step_ksa hp hr hpos

/-- Settles O45: the runs of FILL and KSA one after the other, and which of the two a shorter run is in. -/
theorem fillAndKsaComputeTheKeySchedule : Obligations.FillAndKsaComputeTheKeySchedule := by
  intro s words hp hc hr hkey _ hlen hK
  obtain ⟨m, hm, hrun⟩ := run_fill_ksa hp hc hr hkey hlen hK
  refine ⟨⟨_, hrun, hm, rfl, rfl, rfl, rfl, rfl, rfl, rfl, rfl, rfl, rfl⟩, fun n hn => ?_⟩
  rcases lt_or_ge n 65536 with hfill | hksa
  · obtain ⟨_, ht, m, rfl, -⟩ := run_filled hp hc hr n (by omega)
    exact ⟨_, ht, .inl hp⟩
  · obtain ⟨m, hm, hrun⟩ := run_fill hp hc hr
    obtain ⟨_, ht, m', rfl, -⟩ := run_scheduled (s := { s with S := m, j := 0, phase := .ksa, cnt := 0 }) rfl rfl hr
      (hlen ▸ keyWordCount_pos hkey) hlen hK rfl hm (n - 65536) (by omega)
    have hall := (runSteps_add _ hrun).trans ht
    rw [Nat.add_sub_cancel' hksa] at hall
    exact ⟨_, hall, .inr rfl⟩

/-- Settles O46: SCHED is taken, and FILL, KSA and DROP run one after the other. -/
theorem schedRunsTheCoreToReady : Obligations.SchedRunsTheCoreToReady := by
  intro s words rest hp hh hr hkey _ hlen hK
  have hk : s.klen ≠ 0 := fun h => absurd (h ▸ hkey) (by decide)
  have hstart : step s = .next ((s.withHost rest).goto .fill) :=
    step_of_case (.sched _ rest hp hh (decode_encode .sched) hk rfl)
  obtain ⟨m, hm, hschedule⟩ := run_fill_ksa (s := (s.withHost rest).goto .fill) rfl rfl hr hkey hlen hK
  obtain ⟨m', hm', hdrop⟩ := run_drop (g := Generator.start (ksa words))
    (s := { (s.withHost rest).goto .fill with S := m, i := 0, j := 0, phase := .drop, cnt := 0 }) rfl rfl hr hm rfl rfl
  have hrun := (runSteps_add 786432 hschedule).trans hdrop
  refine ⟨_, (runSteps_add Config.scheduleSteps (runSteps_one hstart)).trans hrun, rfl, rfl, ?_, rfl, hm', rfl, rfl, rfl, rfl, rfl,
    rfl⟩
  exact Generator.start_after_i (ksa words) 786432

end Sys2Proof.Machine
end

section
/-! PROOFS. Keystream generation (spec/42_keystream.md rules R74 to R79) and the session that carries it out (spec/43_cipher_stream.md
rule R82). The core in READY stands at a generator: its `S`, `i` and `j` are the generator's. Each CRYPT moves it one step on and answers the
data byte XOR the byte of that step. RST, the key bytes and SCHED lead to READY at the generator of the key, 786432 steps on; the
CRYPT commands then answer the cipher. -/

namespace Sys2Proof.Machine

/-! ### One step of the generator, and the discarded ones (rules R74, R76) -/

/-- Settles O47: uPRGA on the memory of a generator is the generator's step. -/
theorem prgaStepFollowsTheGenerator : Obligations.PrgaStepFollowsTheGenerator := by
  intro s g hS hi hj
  obtain ⟨m, hm, hu⟩ := uPRGA_next hS hi hj
  exact ⟨m, hu, hm⟩

/-- After the discarded steps a generator's `i` is 0 again (rule R76): 786432 is a multiple of 65536. -/
theorem Generator.start_after_drop_i (f : Table) : ((Generator.start f).after 786432).i = 0 :=
  Generator.start_after_i f 786432

/-- Settles O48: the run of DROP to its end, and the shorter runs, which stay in DROP and answer nothing. -/
theorem dropDiscards786432Steps : Obligations.DropDiscards786432Steps := by
  intro s f hp hc hi hj hS hr
  obtain ⟨m, hm, hrun⟩ := run_drop (g := Generator.start f) hp hc hr hS hi hj
  refine ⟨⟨_, hrun, rfl, rfl, Generator.start_after_drop_i f, rfl, rfl, hm, rfl, rfl, rfl, rfl, rfl, rfl⟩, fun n hn => ?_⟩
  obtain ⟨_, ht, m', rfl, -⟩ := run_dropped (g := Generator.start f) hp hc hr hS hi hj n (by omega)
  exact ⟨_, ht, hp, rfl⟩

/-! ### The responses of the data bytes -/

/-- Between `s` and `t` the host has received the output bytes `out`, each in a response whose `PHASE` is READY. -/
def Outputs (s t : State) (out : List Byte) : Prop :=
  ∃ rs, t.responses = s.responses ++ rs ∧ rs.map responseDout = out ∧ ∀ r ∈ rs, carriesOutput r = true

/-- Without a step there is no output. -/
theorem Outputs.refl (s : State) : Outputs s s [] := ⟨[], by simp⟩

/-- A response formed in READY carries output. -/
theorem carriesOutput_of_ready {s : State} (h : s.phase = .ready) (d : Byte) :
    carriesOutput (responseWord s.status d) = true := by
  rw [carriesOutput, responsePhase_responseWord, State.status_phase, h, beq_self_eq_true]

/-- One response formed in READY, and the outputs behind it. -/
theorem Outputs.cons {s t u : State} {d : Byte} {out : List Byte} (hu : u.phase = .ready)
    (hr : u.responses = s.responses ++ [responseWord u.status d]) (h : Outputs u t out) : Outputs s t (d :: out) := by
  obtain ⟨rs, ht, hout, hall⟩ := h
  refine ⟨responseWord u.status d :: rs, ?_, ?_, List.forall_mem_cons.mpr ⟨carriesOutput_of_ready hu d, hall⟩⟩
  · rw [ht, hr, List.append_assoc, List.singleton_append]
  · rw [List.map_cons, responseDout_responseWord, hout]

/-- Each output byte has its response. -/
theorem Outputs.responses_length {s t : State} {out : List Byte} (h : Outputs s t out) :
    t.responses.length = s.responses.length + out.length := by
  obtain ⟨rs, ht, rfl, -⟩ := h
  rw [ht, List.length_append, List.length_map]

/-- The last responses are those of the output bytes: they hold the bytes, and carry output. -/
theorem Outputs.last {s t : State} {out : List Byte} (h : Outputs s t out) :
    t.lastOutputs out.length = out ∧ ∀ r ∈ t.responses.drop (t.responses.length - out.length), carriesOutput r = true := by
  obtain ⟨rs, ht, rfl, hall⟩ := h
  have hdrop : t.responses.drop (t.responses.length - (rs.map responseDout).length) = rs := by
    rw [ht, List.length_append, List.length_map, Nat.add_sub_cancel, List.drop_left]
  exact ⟨congrArg (List.map responseDout) hdrop, hdrop.symm ▸ hall⟩

/-! ### CRYPT at a generator (rules R79, R81) -/

/-- The core is in READY, and `S`, `i` and `j` are those of the generator. -/
structure State.AtGenerator (s : State) (g : Generator) : Prop where
  ready : s.phase = .ready
  holds : s.S.Holds g.table
  i_eq : s.i = g.i
  j_eq : s.j = g.j

/-- CRYPT, taken, makes one step of the generator and answers the data byte XOR the byte of that step. -/
theorem State.AtGenerator.step_crypt {s : State} {g : Generator} (h : s.AtGenerator g) {d : Byte} {rest : List HostMove}
    (hh : s.host = .command (encode (.crypt d)) :: rest) :
    ∃ t, step s = .next t ∧ t.AtGenerator g.next ∧ t.host = rest ∧
      t.responses = s.responses ++ [responseWord t.status (xorByte d (extract g.next.emitted))] := by
  obtain ⟨m, hm, hu⟩ := uPRGA_next (s := s.withHost rest) h.holds h.i_eq h.j_eq
  have hcrypt := (encryptByte_ok_iff (d := d)).mpr ⟨_, _, hu, rfl⟩
  exact ⟨_, step_of_case (.crypt _ rest d h.ready hh (decode_encode _) hcrypt), ⟨h.ready, hm, rfl, rfl⟩, rfl, rfl⟩

/-- The output for data that begins behind the first `k` data bytes of a session (rule R82). -/
def cipherFrom (key : List Byte) (k : Nat) (data : List Byte) : List Byte :=
  (data.zipIdx k).map fun p => xorByte p.1 (keystreamByte key (p.2 + 1))

/-- The whole output begins behind no data byte. -/
theorem cipher_eq_cipherFrom (key data : List Byte) : cipher key data = cipherFrom key 0 data := rfl

/-- The first byte of the output, and the output behind it. -/
theorem cipherFrom_cons (key : List Byte) (k : Nat) (d : Byte) (data : List Byte) :
    cipherFrom key k (d :: data) = xorByte d (keystreamByte key (k + 1)) :: cipherFrom key (k + 1) data := rfl

/-- There are as many output bytes as data bytes. -/
theorem cipherFrom_length (key : List Byte) (k : Nat) (data : List Byte) : (cipherFrom key k data).length = data.length := by
  rw [cipherFrom, List.length_map, List.length_zipIdx]

/-- Keystream byte `k + 1` is of the step that follows the discarded steps and `k` more (rules R77, R79). -/
theorem keystreamByte_succ (key : List Byte) (k : Nat) :
    keystreamByte key (k + 1) = extract ((keyGenerator key).after (Config.dropSteps + k)).next.emitted := rfl

/-- A run of CRYPT commands behind the first `k` data bytes answers the output from there on. -/
theorem State.AtGenerator.run_stream {key : List Byte} (data : List Byte) {s : State} {k : Nat}
    (h : s.AtGenerator ((keyGenerator key).after (Config.dropSteps + k)))
    (hh : s.host = commandMoves (streamCommands data)) :
    ∃ t, runSteps data.length s = .next t ∧ t.phase = .ready ∧ t.host = [] ∧ Outputs s t (cipherFrom key k data) := by
  induction data generalizing s k with
  | nil => exact ⟨s, rfl, h.ready, hh, .refl s⟩
  | cons d data ih =>
    obtain ⟨u, hu, hgen, hhost, hr⟩ := h.step_crypt hh
    obtain ⟨t, ht, hready, hdone, hout⟩ := ih (k := k + 1) hgen hhost
    rw [← keystreamByte_succ] at hr
    exact ⟨t, (runSteps_succ data.length hu).trans ht, hready, hdone, cipherFrom_cons key k d data ▸ hout.cons hgen.ready hr⟩

/-! ### From any phase that takes commands to the generator of the key -/

/-- The moves of a session: RST, the key bytes, SCHED, the data bytes (rule R61). -/
theorem commandMoves_session (key data : List Byte) :
    commandMoves (sessionCommands key data) = .command (encode .rst) ::
      (commandMoves (keyCommands key) ++ .command (encode .sched) :: commandMoves (streamCommands data)) := by
  simp [commandMoves, sessionCommands]

/-- A host that issues commands alone has no hard reset to come. -/
theorem State.resetPending_commandMoves (s : State) (cs : List Instr) :
    (s.withHost (commandMoves cs)).resetPending = false := by
  cases cs <;> rfl

/-- After a reset of any state no key byte has been given. -/
theorem State.resetCore_holdsKey (s : State) : s.resetCore.HoldsKey [] := by
  obtain ⟨⟩ := State.reset_holdsKey; constructor <;> assumption

/-- RST, taken, ends the session and leaves no key byte given (rule R85). -/
theorem step_rst {s : State} {rest : List HostMove} (ha : s.phase.accepting = true)
    (hh : s.host = .command (encode .rst) :: rest) :
    ∃ t, step s = .next t ∧ t.HoldsKey [] ∧ t.host = rest ∧ t.responses.length = s.responses.length + 1 :=
  ⟨_, step_of_case (.rst _ rest ha hh (decode_encode .rst) rfl), (State.resetCore_holdsKey _).respond 0, rfl,
    List.length_append⟩

/-- A command that the core completes in one step has one response. -/
theorem step_command_responses_length {s t : State} {w : Word} {rest : List HostMove} (ha : s.phase.accepting = true)
    (hh : s.host = .command w :: rest) (h : step s = .next t) (ht : t.phase.accepting = true) :
    t.responses.length = s.responses.length + 1 := by
  rcases step_completes h with ⟨-, r, hr⟩ | ⟨hc, -⟩
  · rw [hr, List.length_append, List.length_singleton]
  · exact absurd (.of_command ha hh ht) hc

/-- The KEYB commands of a key, with other moves behind them, extend the key given so far and get a response each. -/
theorem State.HoldsKey.run_keyCommands (key : List Byte) {s : State} {bytes : List Byte} {moves : List HostMove}
    (h : s.HoldsKey bytes) (hh : s.host = commandMoves (keyCommands key) ++ moves) :
    ∃ t, runSteps key.length s = .next t ∧ t.HoldsKey (bytes ++ key) ∧ t.host = moves ∧
      t.responses.length = s.responses.length + key.length := by
  induction key generalizing s bytes with
  | nil => exact ⟨s, rfl, (List.append_nil bytes).symm ▸ h, hh, rfl⟩
  | cons d key ih =>
    obtain ⟨u, hu, hkey, hhost⟩ := h.step_command (.inr ⟨d, rfl⟩) hh
    obtain ⟨t, ht, hall, hdone, hlen⟩ := ih hkey hhost
    have hone := step_command_responses_length (accepting_of_keyload h.keyload) hh hu (accepting_of_keyload hkey.keyload)
    refine ⟨t, (runSteps_succ key.length hu).trans ht, ?_, hdone, ?_⟩
    · rwa [List.append_assoc] at hall
    · rw [hlen, hone, List.length_cons]; omega

/-- The key words held are as many as `KLEN` says. -/
theorem State.HoldsKey.keywords_length {s : State} {bytes : List Byte} (h : s.HoldsKey bytes) :
    (keywords (bytes.take 131072)).length = keyWordCount s.klen := by
  rw [Machine.keywords_length, List.length_take, min_comm, ← h.klen_eq, keyWordCount]

/-- SCHED, with a key given and the data bytes behind it, leads to the key's generator after the discarded steps. -/
theorem State.HoldsKey.run_sched {s : State} {key : List Byte} (h : s.HoldsKey key) (hne : key ≠ []) {cs : List Instr}
    (hh : s.host = .command (encode .sched) :: commandMoves cs) :
    ∃ t, runSteps (1 + Config.scheduleSteps) s = .next t ∧ t.AtGenerator ((keyGenerator key).after Config.dropSteps) ∧
      t.host = commandMoves cs ∧ t.responses.length = s.responses.length + 1 := by
  have hklen := h.klen_eq
  have hpos := List.length_pos_of_ne_nil hne
  obtain ⟨t, ht, hready, -, hi, hj, hS, -, -, -, -, hhost, hr⟩ :=
    schedRunsTheCoreToReady s _ (commandMoves cs) h.keyload hh (s.resetPending_commandMoves cs) (by omega) (by omega)
      h.keywords_length h.holdsWords
  refine ⟨t, ht, ⟨hready, hS, hi.trans (Generator.start_after_drop_i _).symm, hj⟩, hhost, ?_⟩
  rw [hr, List.length_append, List.length_singleton]

/-! ### The session (rule R82) -/

/-- Settles O53: RST, the key bytes, SCHED and the data bytes, one run behind the other; the outputs are the responses of the last. -/
theorem sessionOutputIsDataXorKeystream : Obligations.SessionOutputIsDataXorKeystream := by
  intro s key data ha hne
  obtain ⟨a, hrst, hempty, hahost, halen⟩ :=
    step_rst (s := s.withHost (commandMoves (sessionCommands key data))) ha (commandMoves_session key data)
  obtain ⟨b, hkeys, hkey, hbhost, hblen⟩ := hempty.run_keyCommands key hahost
  obtain ⟨c, hsched, hgen, hchost, hclen⟩ := hkey.run_sched hne hbhost
  obtain ⟨t, hdata, hready, hdone, hout⟩ := hgen.run_stream (k := 0) data hchost
  have htokey := (runSteps_add key.length (runSteps_one hrst)).trans hkeys
  have htoready := (runSteps_add (1 + Config.scheduleSteps) htokey).trans hsched
  have hlen := hout.responses_length
  have hlast := hout.last
  rw [cipherFrom_length] at hlen hlast
  rw [← cipher_eq_cipherFrom] at hlast
  refine ⟨t, (runSteps_add data.length htoready).trans hdata, hready, hdone, ?_, hlast⟩
  rw [hlen, hclen, hblen, halen, State.withHost_responses]
  omega

end Sys2Proof.Machine
end

section
/-! PROOFS. The command CRYPT (spec/43_cipher_stream.md rule R81) and the session that undoes itself (rule R84). In READY the command is one
uPRGA and the response to it, so what it writes and what it leaves alone are read off uPRGA, which never sees the data byte. A session's
output is `cipher` of its data, and `cipher` with the same key twice gives the data back, byte by byte. -/

namespace Sys2Proof.Machine

/-! ### CRYPT in READY (rule R81) -/

/-- In READY, CRYPT makes one generator step, answers the data byte XOR the byte of that step, and does nothing else. -/
theorem exec_crypt_iff {s t : State} {d : Byte} (hp : s.phase = .ready) :
    exec (.crypt d) s = .next t ↔ ∃ u w, uPRGA s = .ok (u, w) ∧ t = u.respond (xorByte d (extract w)) := by
  have hrun : exec (.crypt d) s = outcomeOf (encryptByte s d) := onlyIn_own (.inr rfl) hp _
  rw [hrun, outcomeOf_next_iff, encryptByte_ok_iff]
  rfl

/-- uPRGA on a memory that holds a table exchanges two of its words and emits the word of the generator's step (rule R74); `uPRGA_next` says
of the memory left only which table it holds. -/
theorem uPRGA_of_holds {s : State} {f : Table} (hS : s.S.Holds f) :
    let i := add16 s.i 1
    let j := add16 (f i) s.j
    uPRGA s = .ok ({ s with S := (s.S.write i.toNat (f j)).write j.toNat (f i), i := i, j := j },
      (Generator.next ⟨f, s.i, s.j⟩).emitted) := by
  have hswap := (hS.swap (add16 s.i 1) (add16 (f (add16 s.i 1)) s.j)).2
  have hword := (hswap _).trans (congrArg some (Generator.emitted_next ⟨f, s.i, s.j⟩).symm)
  exact uPRGA_ok_iff.mpr ⟨_, _, hS _, hS _, hword, rfl⟩

/-- Settles O50: uPRGA on the table that `S` holds, and the response to it. -/
theorem cryptMakesOneStepAndAnswersTheByte : Obligations.CryptMakesOneStepAndAnswersTheByte :=
  fun _ _ _ hp hS => (exec_crypt_iff hp).mpr ⟨_, _, uPRGA_of_holds hS, rfl⟩

/-- Settles O51: uPRGA writes the two words it exchanges, `i` and `j`, and the response writes nothing of the core. -/
theorem cryptFrame : Obligations.CryptFrame := by
  intro s t d hp h
  obtain ⟨u, w, hu, rfl⟩ := (exec_crypt_iff hp).mp h
  obtain ⟨a, b, ha, -, -, rfl⟩ := uPRGA_ok_iff.mp hu
  exact ⟨a, ha, rfl, rfl, fun c => Memory.read?_exchange_ne s.S a b, rfl, rfl, rfl, rfl, rfl, rfl, rfl⟩

/-! ### The data byte (rule R2) -/

/-- In READY two data bytes meet the same generator step, so the states left differ in the byte of the response alone. -/
theorem exec_crypt_same_step {s t : State} {d : Byte} (hp : s.phase = .ready) (h : exec (.crypt d) s = .next t) (d' : Byte) :
    ∃ (t' : State) (ks : Byte), exec (.crypt d') s = .next t' ∧ t' = { t with responses := t'.responses } ∧
      t.responses = s.responses ++ [responseWord t.status (d ^^^ ks)] ∧
      t'.responses = s.responses ++ [responseWord t.status (d' ^^^ ks)] := by
  obtain ⟨u, w, hu, rfl⟩ := (exec_crypt_iff hp).mp h
  have hr : u.responses = s.responses := by rw [uPRGA_frame hu]
  refine ⟨_, extract w, (exec_crypt_iff hp).mpr ⟨u, w, hu, rfl⟩, rfl, ?_, ?_⟩ <;>
    rw [State.respond_responses, hr, State.respond_status, xorByte]

/-- Settles O52: in ERROR and KEYLOAD the command never uses its byte; in READY the byte meets the word of uPRGA only in the response. -/
theorem cryptStateIgnoresTheData : Obligations.CryptStateIgnoresTheData := by
  intro s t d d' h
  rcases onlyIn_cases h with ⟨herror, rfl⟩ | ⟨hp, hmisplaced, rfl⟩ | ⟨-, hready, -⟩
  · exact ⟨_, onlyIn_error _ herror _, rfl, fun hready => nomatch herror.symm.trans hready⟩
  · exact ⟨_, onlyIn_misplaced hp hmisplaced _, rfl, fun hready => absurd hready hmisplaced⟩
  · obtain ⟨t', ks, ht', hsame, hr, hr'⟩ := exec_crypt_same_step hready h d'
    exact ⟨t', ht', hsame, fun _ => ⟨ks, hr, hr'⟩⟩

/-! ### Two sessions with the same key (rule R84) -/

/-- The output for the output is the data: each byte meets its keystream byte twice. -/
theorem cipherFrom_cipherFrom (key data : List Byte) (k : Nat) : cipherFrom key k (cipherFrom key k data) = data := by
  induction data generalizing k with
  | nil => rfl
  | cons d data ih => rw [cipherFrom_cons, cipherFrom_cons, xorByte_xorByte_self, ih]

/-- Settles O54: each session's output is the cipher of its data, and the cipher of the cipher is the data. -/
theorem sessionTwiceGivesTheDataBack : Obligations.SessionTwiceGivesTheDataBack := by
  intro s s' key data ha ha' hne
  obtain ⟨t, hrun, -, -, -, hout, -⟩ := sessionOutputIsDataXorKeystream s key data ha hne
  obtain ⟨t', hrun', -, -, -, hback, -⟩ := sessionOutputIsDataXorKeystream s' key (cipher key data) ha' hne
  have hlen : (cipher key data).length = data.length := cipherFrom_length key 0 data
  rw [hlen] at hback
  exact ⟨t, t', hrun, hout ▸ hrun', hback.trans (cipherFrom_cipherFrom key data 0)⟩

end Sys2Proof.Machine
end

section
/-! PROOFS. The control commands RST and STAT (spec/44_control.md rules R85, R86). The idea for the inserted STAT: no step reads the
responses the host has received, so a step made after other responses is the same step and returns the same response. -/

namespace Sys2Proof.Machine

/-! ### RST and STAT by themselves -/

/-- After a reset every field of `STATUS` is 0 (rules R28, R35). -/
theorem State.resetCore_status (s : State) : s.resetCore.status = 0x00 := by
  simp [State.status, Cause.code, Phase.code]

/-- Settles O35: the command runs, and it is the reset and the response to it. -/
theorem rstResetsEveryRegister : Obligations.RstResetsEveryRegister := by
  intro s ha
  calc exec .rst s
      = .next (s.resetCore.respond 0x00) := whenAccepting_accepting ha _
    _ = .next { s.resetCore with responses := s.responses ++ [responseWord 0x00 0x00] } := by
      rw [State.respond, State.resetCore_status, State.resetCore_responses]
    _ = .next { State.reset with host := s.host, responses := s.responses ++ [0x0000] } := rfl

/-- Settles O36: the command runs, and it is the response alone. -/
theorem statAnswersAndWritesNothing : Obligations.StatAnswersAndWritesNothing :=
  fun _ ha => whenAccepting_accepting ha _

/-! ### Other responses received before -/

/-- The state with a list of received responses in place of those it had. -/
def State.withResponses (s : State) (rs : List Word) : State := { s with responses := rs }

/-- The responses received do not decide which micro-step is the last of its phase. -/
theorem State.withResponses_lastOf (s : State) (rs : List Word) (steps : Nat) :
    (s.withResponses rs).lastOf steps = s.lastOf steps := rfl

/-- uFILL is the same after other responses. -/
theorem uFILL_withResponses (s : State) (rs : List Word) : uFILL (s.withResponses rs) = (uFILL s).withResponses rs := by
  rw [uFILL_eq, uFILL_eq, State.withResponses_lastOf]
  split <;> rfl

/-- uKSA is the same after other responses. -/
theorem uKSA_withResponses {s t : State} (h : uKSA s = .ok t) (rs : List Word) :
    uKSA (s.withResponses rs) = .ok (t.withResponses rs) := by
  obtain ⟨a, k, b, hn, ha, hlt, hk, hb, rfl⟩ := uKSA_ok_iff.mp h
  refine uKSA_ok_iff.mpr ⟨a, k, b, hn, ha, hlt, hk, hb, ?_⟩
  rw [State.withResponses_lastOf]
  split <;> rfl

/-- uPRGA is the same after other responses, and emits the same word. -/
theorem uPRGA_withResponses {s t : State} {w : Word} (h : uPRGA s = .ok (t, w)) (rs : List Word) :
    uPRGA (s.withResponses rs) = .ok (t.withResponses rs, w) := by
  obtain ⟨a, b, ha, hb, hw, rfl⟩ := uPRGA_ok_iff.mp h
  exact uPRGA_ok_iff.mpr ⟨a, b, ha, hb, hw, rfl⟩

/-- A key byte is ingested in the same way after other responses. -/
theorem ingestKeyByte_withResponses {s t : State} {d : Byte} (h : ingestKeyByte s d = .ok t) (rs : List Word) :
    ingestKeyByte (s.withResponses rs) d = .ok (t.withResponses rs) := by
  rcases ingestKeyByte_ok_iff.mp h with ⟨hfull, rfl⟩ | ⟨hroom, hfirst, ha, rfl⟩ | ⟨hroom, hsecond, ha, old, hold, rfl⟩
  · exact ingestKeyByte_ok_iff.mpr (.inl ⟨hfull, rfl⟩)
  · exact ingestKeyByte_ok_iff.mpr (.inr (.inl ⟨hroom, hfirst, ha, rfl⟩))
  · exact ingestKeyByte_ok_iff.mpr (.inr (.inr ⟨hroom, hsecond, ha, old, hold, rfl⟩))

/-- The responses received do not decide which error a command raises. -/
theorem Raises.withResponses {s : State} {w : Word} {c : Cause} (h : Raises s w c) (rs : List Word) :
    Raises (s.withResponses rs) w c := by
  cases h with
  | illegal e hd => exact .illegal e hd
  | keybInReady d hd hp => exact .keybInReady d hd hp
  | schedInReady hd hp => exact .schedInReady hd hp
  | cryptInKeyload d hd hp => exact .cryptInKeyload d hd hp
  | emptyKey hd hp hk => exact .emptyKey hd hp hk

/-! ### Runs after other responses -/

/-- `n` steps lead from `s` to `t` and return the responses `later`, and they do so whatever the host received before. -/
def Returns (n : Nat) (s t : State) (later : List Word) : Prop :=
  t.responses = s.responses ++ later ∧
    ∀ rs, runSteps n (s.withResponses rs) = .next (t.withResponses (rs ++ later))

/-- A step without a response. -/
theorem exists_returns_of_silent {s t : State} (hr : t.responses = s.responses)
    (h : ∀ rs, step (s.withResponses rs) = .next (t.withResponses rs)) : ∃ later, Returns 1 s t later :=
  ⟨[], by rw [hr, List.append_nil], fun rs => by rw [List.append_nil]; exact runSteps_one (h rs)⟩

/-- A step whose last act is a response. -/
theorem exists_returns_of_respond {s u : State} {d : Byte} (hr : u.responses = s.responses)
    (h : ∀ rs, step (s.withResponses rs) = .next ((u.withResponses rs).respond d)) :
    ∃ later, Returns 1 s (u.respond d) later :=
  ⟨[responseWord u.status d], by rw [State.respond_responses, hr], fun rs => runSteps_one (h rs)⟩

/-- A step, then a run. -/
theorem Returns.cons {n : Nat} {s t u : State} {a b : List Word} (h : Returns 1 s t a) (hrun : Returns n t u b) :
    Returns (n + 1) s u (a ++ b) := by
  obtain ⟨hr, hstep⟩ := h
  obtain ⟨hr', hsteps⟩ := hrun
  refine ⟨by rw [hr', hr, List.append_assoc], fun rs => ?_⟩
  rw [Nat.add_comm, runSteps_add n (hstep rs), hsteps, List.append_assoc]

/-- Every step is the same after other responses, and returns the same response if it returns one. -/
theorem step_returns {s t : State} (h : step s = .next t) : ∃ later, Returns 1 s t later := by
  cases step_cases h with
  | hardReset rest hh ht => subst ht; exact exists_returns_of_silent rfl fun rs => step_of_case (.hardReset rest hh rfl)
  | idle moves ha hw ht => subst ht; exact exists_returns_of_silent rfl fun rs => step_of_case (.idle moves ha hw rfl)
  | sched w rest hp hh hd hk ht => subst ht; exact exists_returns_of_silent rfl fun rs => step_of_case (.sched w rest hp hh hd hk rfl)
  | fill moves hp hw ht =>
    subst ht
    exact exists_returns_of_silent (by rw [uFILL_frame]; rfl) fun rs =>
      step_of_case (.fill moves hp hw (uFILL_withResponses (s.withHost moves) rs).symm)
  | ksa moves hp hw ht =>
    exact exists_returns_of_silent (by rw [uKSA_frame ht]; rfl) fun rs => step_of_case (.ksa moves hp hw (uKSA_withResponses ht rs))
  | drop moves hp hw u w hu ht =>
    have hr : u.responses = s.responses := by rw [uPRGA_frame hu]; rfl
    by_cases hl : u.lastOf Config.dropSteps = true
    · rw [if_pos hl] at ht
      subst ht
      exact exists_returns_of_respond (u := u.goto .ready) hr fun rs =>
        step_of_case (.drop moves hp hw _ w (uPRGA_withResponses hu rs) (if_pos hl).symm)
    · rw [if_neg hl] at ht
      subst ht
      exact exists_returns_of_silent hr fun rs => step_of_case (.drop moves hp hw _ w (uPRGA_withResponses hu rs) (if_neg hl).symm)
  | rst w rest ha hh hd ht => subst ht; exact exists_returns_of_respond rfl fun rs => step_of_case (.rst w rest ha hh hd rfl)
  | stat w rest ha hh hd ht => subst ht; exact exists_returns_of_respond rfl fun rs => step_of_case (.stat w rest ha hh hd rfl)
  | ignored w rest hp hh hd ht => subst ht; exact exists_returns_of_respond rfl fun rs => step_of_case (.ignored w rest hp hh hd rfl)
  | raised w rest c hp hh hc ht =>
    subst ht
    exact exists_returns_of_respond rfl fun rs => step_of_case (.raised w rest c hp hh (hc.withResponses rs) rfl)
  | keyb w rest d hp hh hd u hu ht =>
    subst ht
    exact exists_returns_of_respond (by rw [ingestKeyByte_frame hu]; rfl) fun rs =>
      step_of_case (.keyb w rest d hp hh hd _ (ingestKeyByte_withResponses hu rs) rfl)
  | crypt w rest d hp hh hd ht =>
    obtain ⟨u, w', hu, rfl⟩ := encryptByte_ok_iff.mp ht
    exact exists_returns_of_respond (by rw [uPRGA_frame hu]; rfl) fun rs =>
      step_of_case (.crypt w rest d hp hh hd (encryptByte_ok_iff.mpr ⟨_, w', uPRGA_withResponses hu rs, rfl⟩))

/-- Every run is the same after other responses, and returns the same responses. -/
theorem runSteps_returns {n : Nat} {s t : State} (h : runSteps n s = .next t) : ∃ later, Returns n s t later := by
  induction n generalizing s with
  | zero => cases h; exact ⟨[], (List.append_nil _).symm, fun rs => by rw [List.append_nil]; rfl⟩
  | succ n ih =>
    obtain ⟨u, hu, ht⟩ := runSteps_succ_next h
    obtain ⟨a, hstep⟩ := step_returns hu
    obtain ⟨b, hrun⟩ := ih ht
    exact ⟨a ++ b, hstep.cons hrun⟩

/-- Settles O37: STAT is one step that adds its response, and the run behind it is the run without it after one more response. -/
theorem insertedStatChangesNoOtherResponse : Obligations.InsertedStatChangesNoOtherResponse := by
  intro n s t rest ha hh hrun
  have hstat : step s = .next ((s.withHost rest).respond 0x00) := step_of_case (.stat _ rest ha hh (decode_encode .stat) rfl)
  obtain ⟨later, hr, hafter⟩ := runSteps_returns hrun
  exact ⟨later, hr, (runSteps_succ n hstat).trans (hafter (s.responses ++ [responseWord s.status 0x00]))⟩

end Sys2Proof.Machine
end

section
/-! PROOFS. The errors (spec/60_exceptions.md rules R90 to R99 and R103). The idea: as far as `ECODE` and being in ERROR go, a step does one of
three things: it raises an error, it is a reset, or it leaves both as they are. -/

namespace Sys2Proof.Machine

/-! ### The idle core (rule R103) -/

/-- A core whose host has no move waits. -/
theorem State.waits_of_no_move {s : State} (hh : s.host = []) : s.Waits s.host :=
  .inl ⟨rfl, by simp [State.resetPending, hh], by simp [State.taken, hh]⟩

/-- Settles O23: a step of an idle core waits with no move. -/
theorem idleCoreKeepsItsState : Obligations.IdleCoreKeepsItsState :=
  fun s ha hh => step_of_case (.idle s.host ha (State.waits_of_no_move hh) s.withHost_self.symm)

/-! ### The three errors (rules R90 to R92) -/

/-- Settles O30: each of the commands belongs to the other phase. -/
theorem misplacedCommandRaisesSequenceError : Obligations.MisplacedCommandRaisesSequenceError := by
  refine fun s => ⟨fun hp d => ?_, fun hp => ?_, fun hp d => ?_⟩
  · exact onlyIn_misplaced (.inr hp) (by simp [hp]) _
  · exact onlyIn_misplaced (.inr hp) (by simp [hp]) _
  · exact onlyIn_misplaced (.inl hp) (by simp [hp]) _

/-- A word that rule R57's formula calls illegal does not decode. -/
theorem exists_decode_error_of_illegal {w : Word} (h : legal w = false) : ∃ e, decode w = .error e := by
  cases hd : decode w with
  | error e => exact ⟨e, rfl⟩
  | ok i => rw [legal_of_decode hd] at h; cases h

/-- Settles O29: an illegal word does not decode, which is a reason to raise IllegalCommand; the rule's examples are evaluated. -/
theorem illegalWordRaisesIllegalCommand : Obligations.IllegalWordRaisesIllegalCommand := by
  refine ⟨fun s w rest hp hh hl => ?_, List.forall_iff_forall_mem.mp (by decide)⟩
  obtain ⟨e, hd⟩ := exists_decode_error_of_illegal hl
  exact step_of_case (.raised w rest .illegalCommand hp hh (.illegal e hd) rfl)

/-! ### Into ERROR and out of it -/

/-- What a step from `s` to `t` does to `ECODE` and to being in ERROR. -/
inductive ErrorCase (s t : State) : Prop
  /-- A command word, taken in KEYLOAD or READY, raises an error. -/
  | raised (w : Word) (rest : List HostMove) (c : Cause) (hp : s.phase = .keyload ∨ s.phase = .ready)
      (hh : s.host = .command w :: rest) (hc : Raises s w c) (ht : t = (s.withHost rest).raise c)
  /-- RST or a hard reset leaves the reset values. -/
  | reset (rest : List HostMove) (hh : s.host = .command (encode .rst) :: rest ∨ s.host = .hardReset 0 :: rest)
      (ht : t = { State.reset with host := rest, responses := t.responses })
  /-- Any other step leaves `ECODE`, and is in ERROR after it exactly when it was before. -/
  | kept (he : t.ecode = s.ecode) (hp : t.phase = .error ↔ s.phase = .error)

/-- A step that leaves `ECODE` and `PHASE`. -/
theorem ErrorCase.of_same_phase {s t : State} (he : t.ecode = s.ecode) (hp : t.phase = s.phase) : ErrorCase s t :=
  .kept he (by rw [hp])

/-- A step that leaves `ECODE`, neither from ERROR nor to it. -/
theorem ErrorCase.of_outside {s t : State} (he : t.ecode = s.ecode) (hs : s.phase ≠ .error) (ht : t.phase ≠ .error) :
    ErrorCase s t :=
  .kept he (iff_of_false ht hs)

/-- Every step is one of the three. -/
theorem step_errorCase {s t : State} (h : step s = .next t) : ErrorCase s t := by
  cases step_cases h with
  | raised w rest c hp hh hc ht => exact .raised w rest c hp hh hc ht
  | hardReset rest hh ht => subst ht; exact .reset rest (.inr hh) rfl
  | rst w rest _ hh hd ht => subst ht; exact .reset rest (.inl (encode_of_decode hd ▸ hh)) rfl
  | idle moves _ _ ht => subst ht; exact .of_same_phase rfl rfl
  | stat w rest _ _ _ ht => subst ht; exact .of_same_phase rfl rfl
  | ignored w rest _ _ _ ht => subst ht; exact .of_same_phase rfl rfl
  | keyb w rest d _ _ _ u hu ht => rw [ht, ingestKeyByte_frame hu]; exact .of_same_phase rfl rfl
  | crypt w rest d _ _ _ ht =>
    obtain ⟨u, w', hu, rfl⟩ := encryptByte_ok_iff.mp ht
    rw [uPRGA_frame hu]
    exact .of_same_phase rfl rfl
  | sched w rest hp _ _ _ ht => subst ht; exact .of_outside rfl (by simp [hp]) (by simp)
  | fill moves hp _ ht =>
    have he : t.ecode = s.ecode := by rw [ht, uFILL_frame]; rfl
    rcases uFILL_sequencer (s.withHost moves) with ⟨-, hphase, -, -⟩ | ⟨-, hphase, -, -⟩
    · exact .of_outside he (by simp [hp]) (by simp [ht, hphase])
    · exact .of_same_phase he (ht ▸ hphase)
  | ksa moves hp _ ht =>
    have he : t.ecode = s.ecode := by rw [uKSA_frame ht]; rfl
    rcases uKSA_sequencer ht with ⟨-, hphase, -, -, -⟩ | ⟨-, hphase, -, -⟩
    · exact .of_outside he (by simp [hp]) (by simp [hphase])
    · exact .of_same_phase he hphase
  | drop moves hp _ u w hu ht =>
    rcases drop_sequencer hu ht with ⟨-, rfl⟩ | ⟨-, rfl⟩ <;> rw [uPRGA_frame hu]
    · exact .of_outside rfl (by simp [hp]) (by simp)
    · exact .of_same_phase rfl rfl

/-- Settles O31: SCHED in its own phase tests the key first; any other step that changes `ECODE` clears it or raises another cause. -/
theorem emptyKeyAloneRaisesKeyScheduleError : Obligations.EmptyKeyAloneRaisesKeyScheduleError := by
  refine ⟨fun s hp hk => (onlyIn_own (.inl rfl) hp _).trans (if_pos hk), fun s t hstep hs ht => ?_,
    fun _ => keyWordCount_pos⟩
  cases step_errorCase hstep with
  | raised w rest c _ hh hc htt =>
    obtain rfl : c = .keyScheduleError := by simpa [htt] using ht
    cases hc with
    | emptyKey hd hload hk => exact ⟨hload, hk, State.taken_of_decode (accepting_of_keyload hload) hh hd⟩
  | reset rest _ htt => rw [htt] at ht; cases ht
  | kept he _ => exact absurd (he ▸ ht) hs

/-- Settles O32: of the three kinds of step only a raised error leads into ERROR. -/
theorem errorEntryWritesOnlyCauseAndPhase : Obligations.ErrorEntryWritesOnlyCauseAndPhase := by
  intro s t hstep hs ht
  cases step_errorCase hstep with
  | raised w rest c hp hh hc htt => exact ⟨hp, w, rest, c, hc.cause_ne_none, hh, htt⟩
  | reset rest _ htt => rw [htt] at ht; cases ht
  | kept _ hp => exact absurd (hp.mp ht) hs

/-- Settles O33: a word other than RST's does not decode to RST and only gets its answer; RST's own is executed (rule R85). -/
theorem errorPhaseIsSticky : Obligations.ErrorPhaseIsSticky := by
  refine ⟨fun s w rest hp hh hw => ?_, fun s rest hp hh => ?_⟩
  · have hd : decode w ≠ .ok .rst := fun hd => hw (encode_of_decode hd)
    exact step_of_case (.ignored w rest hp hh hd rfl)
  · have ha := accepting_of_error hp
    have hexec := stepRunsTheDecodedCommand s 0x1000 rest .rst ha hh (decode_encode .rst)
    exact ⟨hexec, _, hexec.trans (rstResetsEveryRegister { s with host := rest } ha), rfl, rfl, rfl⟩

/-- Settles O34: of the three kinds of step only a reset leads out of ERROR. -/
theorem errorIsLeftOnlyByReset : Obligations.ErrorIsLeftOnlyByReset := by
  intro s t hs hstep ht
  cases step_errorCase hstep with
  | raised w rest c _ _ _ htt => exact absurd (htt ▸ rfl) ht
  | reset rest hh htt => exact ⟨rest, hh, htt⟩
  | kept _ hp => exact absurd (hp.mpr hs) ht

end Sys2Proof.Machine
end

section
/-! PROOFS. The hard reset and the bounded progress of a busy core (spec/70_reset_and_hazards.md rules R105, R111). The idea for the reset
still to come: no micro-step reads the host's moves. The idea for the bound: a micro-step of a busy core either leaves it busy and silent
or is the last one and answers, and each leaves one fewer to make. -/

namespace Sys2Proof.Machine

/-! ### Other moves of the host (rule R105) -/

/-- uFILL is the same whatever the host does next. -/
theorem uFILL_withHost (s : State) (moves : List HostMove) : uFILL (s.withHost moves) = (uFILL s).withHost moves := by
  rw [uFILL_eq, uFILL_eq, State.withHost_lastOf]
  split <;> rfl

/-- uKSA is the same whatever the host does next. -/
theorem uKSA_withHost {s t : State} (h : uKSA s = .ok t) (moves : List HostMove) :
    uKSA (s.withHost moves) = .ok (t.withHost moves) := by
  obtain ⟨a, k, b, hn, ha, hlt, hk, hb, rfl⟩ := uKSA_ok_iff.mp h
  refine uKSA_ok_iff.mpr ⟨a, k, b, hn, ha, hlt, hk, hb, ?_⟩
  rw [State.withHost_lastOf]
  split <;> rfl

/-- uPRGA is the same whatever the host does next, and emits the same word. -/
theorem uPRGA_withHost {s t : State} {w : Word} (h : uPRGA s = .ok (t, w)) (moves : List HostMove) :
    uPRGA (s.withHost moves) = .ok (t.withHost moves, w) := by
  obtain ⟨a, b, ha, hb, hw, rfl⟩ := uPRGA_ok_iff.mp h
  exact uPRGA_ok_iff.mpr ⟨a, b, ha, hb, hw, rfl⟩

/-- The micro-step is the same whatever the host does next. -/
theorem microStep_withHost {s t : State} (h : microStep s = .next t) (moves : List HostMove) :
    microStep (s.withHost moves) = .next (t.withHost moves) := by
  cases hp : s.phase with
  | fill =>
    rw [microStep_fill hp] at h
    cases h
    rw [microStep_fill (s := s.withHost moves) hp, uFILL_withHost]
  | ksa =>
    have hksa := uKSA_withHost ((microStep_ksa_iff hp).mp h) moves
    exact (microStep_ksa_iff (s := s.withHost moves) hp).mpr hksa
  | drop =>
    obtain ⟨u, w, hu, rfl⟩ := (microStep_drop_iff hp).mp h
    refine (microStep_drop_iff (s := s.withHost moves) hp).mpr ⟨_, w, uPRGA_withHost hu moves, ?_⟩
    rw [State.withHost_lastOf]
    split <;> rfl
  | keyload | ready | error =>
    have ha : s.phase.accepting = true := by rw [hp]; rfl
    rw [microStep_idle ha] at h
    cases h
    exact microStep_idle (s := s.withHost moves) ha

/-- Settles O25: with no move and with a reset still to come the core makes the same micro-step. -/
theorem pendingHardResetOnlyCountsDown : Obligations.PendingHardResetOnlyCountsDown := by
  intro s t delay rest hh h
  have hidle : microStep (s.withHost []) = .next t :=
    (step_waits (State.waits_of_no_move (s := s.withHost []) rfl)).symm.trans h
  calc step s = microStep (s.withHost (.hardReset delay :: rest)) := step_waits (.inr ⟨delay, rest, hh, rfl⟩)
    _ = .next (t.withHost (.hardReset delay :: rest)) := microStep_withHost hidle (.hardReset delay :: rest)

/-- Settles O24: a reset that strikes is the step, in whatever phase. -/
theorem hardResetStrikesInEveryPhase : Obligations.HardResetStrikesInEveryPhase :=
  fun _ _ hh => step_reset hh

/-! ### A busy core answers once, in READY (rule R111) -/

/-- A micro-step of a busy core leaves it busy with no response, or leads to READY with the response of SCHED. -/
theorem microStep_busy_cases {s t : State} (hb : s.busy = true) (h : microStep s = .next t) :
    (t.busy = true ∧ t.responses = s.responses) ∨
    (t.phase = .ready ∧ t.responses = s.responses ++ [responseWord t.status 0x00]) := by
  rcases s.busy_iff.mp hb with hp | hp | hp
  · rw [microStep_fill hp] at h
    cases h
    refine .inl ⟨(uFILL s).busy_iff.mpr ?_, by rw [uFILL_frame]⟩
    rcases uFILL_sequencer s with ⟨-, hphase, -⟩ | ⟨-, hphase, -⟩
    · exact .inr (.inl hphase)
    · exact .inl (hphase.trans hp)
  · have hksa := (microStep_ksa_iff hp).mp h
    refine .inl ⟨t.busy_iff.mpr ?_, by rw [uKSA_frame hksa]⟩
    rcases uKSA_sequencer hksa with ⟨-, hphase, -⟩ | ⟨-, hphase, -⟩
    · exact .inr (.inr hphase)
    · exact .inr (.inl (hphase.trans hp))
  · obtain ⟨u, w, hu, ht⟩ := (microStep_drop_iff hp).mp h
    have hresponses : u.responses = s.responses := by rw [uPRGA_frame hu]
    have hphase : u.phase = .drop := by rw [uPRGA_frame hu]; exact hp
    rcases drop_sequencer hu ht with ⟨-, rfl⟩ | ⟨-, rfl⟩
    · exact .inr ⟨rfl, congrArg (· ++ _) hresponses⟩
    · exact .inl ⟨u.count.busy_iff.mpr (.inr (.inr hphase)), hresponses⟩

/-- The micro-steps that remain lead a busy core to READY with one response, with no hard reset to come. -/
theorem State.Inv.run_remaining {s : State} (h : s.Inv) (hb : s.busy = true) (hr : s.resetPending = false) :
    ∃ t, runSteps s.remaining s = .next t ∧ t.phase = .ready ∧ t.host = s.host ∧
      t.responses = s.responses ++ [responseWord t.status 0x00] := by
  induction hn : s.remaining generalizing s with
  | zero => rw [State.busy_eq_false (h.accepting_of_remaining hn)] at hb; cases hb
  | succ n ih =>
    obtain ⟨u, hu⟩ := h.microStep_total
    have hstep : step s = .next u := step_busy hb hr ▸ hu
    have hhost : u.host = s.host := microStep_host hu
    have hleft : u.remaining = n := Nat.succ.inj ((h.remaining_microStep hb hu).trans hn)
    rw [runSteps_succ n hstep]
    rcases microStep_busy_cases hb hu with ⟨hbusy, hsilent⟩ | ⟨hready, hanswer⟩
    · obtain ⟨t, hrun, hready, ht, hanswer⟩ :=
        ih (everyStepKeepsTheInvariant s u h hstep) hbusy (State.resetPending_congr hhost ▸ hr) hleft
      exact ⟨t, hrun, hready, ht.trans hhost, hsilent ▸ hanswer⟩
    · obtain rfl : n = 0 := hleft.symm.trans (State.remaining_accepting (accepting_of_ready hready))
      exact ⟨u, rfl, hready, hhost, hanswer⟩

/-- Settles O49: the steps that remain are at most those of the whole of SCHED. -/
theorem busyCoreReachesReady : Obligations.BusyCoreReachesReady :=
  fun s h hb hr => ⟨s.remaining, s.remaining_le, h.run_remaining hb hr⟩

end Sys2Proof.Machine
end

section
/-! PROOFS. The canonical form of a memory (spec/20_memory.md section 7), the words of the decoding table (spec/95_test_vectors.md section
2.8), and the invariant at reset. The idea for the canonical form: a list of rising indices contains exactly the cells it reads, and two
lists in strictly rising order with the same cells are one list. -/

namespace Sys2Proof.Machine

/-! ### The canonical form -/

/-- A memory with rising indices contains exactly the cells it reads. -/
theorem Memory.mem_iff_read? {m : Memory} (h : (m.map Prod.fst).Pairwise (· < ·)) (a : Nat) (v : Word) :
    (a, v) ∈ m ↔ m.read? a = some v := by
  induction m with
  | nil => simp
  | cons c m ih =>
    obtain ⟨x, w⟩ := c
    obtain ⟨hx, hm⟩ := List.pairwise_cons.mp h
    rw [List.mem_cons, ih hm, Memory.read?, Prod.mk.injEq]
    by_cases hax : a = x
    · subst hax
      simp [Memory.read?_below hx, eq_comm]
    · simp [hax]

/-- Settles O10: the two lists are in strictly rising order and contain the same cells. -/
theorem canonicalMemoriesThatReadAlikeAreEqual : Obligations.CanonicalMemoriesThatReadAlikeAreEqual := by
  rintro m n ⟨hm, -⟩ ⟨hn, -⟩ hread
  have hcells : ∀ c : Cell, c ∈ m ↔ c ∈ n := fun ⟨a, v⟩ =>
    calc (a, v) ∈ m ↔ m.read? a = some v := Memory.mem_iff_read? hm a v
      _ ↔ n.read? a = some v := by rw [hread a]
      _ ↔ (a, v) ∈ n := (Memory.mem_iff_read? hn a v).symm
  have : Std.Irrefl fun c d : Cell => c.1 < d.1 := ⟨fun c => lt_irrefl c.1⟩
  have : Std.Antisymm fun c d : Cell => c.1 < d.1 := ⟨fun _ _ h h' => absurd h' (lt_asymm h)⟩
  exact (List.pairwise_map.mp hm).eq_of_mem_iff (List.pairwise_map.mp hn) hcells

/-! ### The words of the decoding table (rules R56, R57) -/

/-- Settles O13: each legal word of the table is the word of its command; rule R57's formula is evaluated on the illegal ones. -/
theorem wordsOfTheSpecDecode : Obligations.WordsOfTheSpecDecode :=
  ⟨decode_encode .rst, decode_encode (.keyb 0xAB), decode_encode (.keyb 0x00), decode_encode .sched,
    decode_encode (.crypt 0x41), decode_encode (.crypt 0xFF), decode_encode .stat,
    List.forall_iff_forall_mem.mp (by decide)⟩

/-! ### The invariant at reset -/

/-- Settles O16: a reset of the reset state leaves it as it is, and every reset leaves a state that meets the invariant. -/
theorem resetMeetsTheInvariant : Obligations.ResetMeetsTheInvariant :=
  State.resetCore_inv State.reset

end Sys2Proof.Machine
end
